-- ==== Sys2Proof/Word.lean ====
section
/-! DEFINITION. The word types of the block: a register word, a sample byte, the shift register, a register index. -/

namespace Sys2Proof

/-- One port register, 64 bits wide (R50, R54). -/
abbrev Word := BitVec 64

/-- One PCM sample, 8 bits unsigned (R29). -/
abbrev Byte := BitVec 8

/-- The shift register, 15 bits wide (R5 `LFSR_WIDTH`, R33, R166). -/
abbrev Lfsr := BitVec 15

/-- A register index on the port, 4 bits wide (R5, R50, R56). -/
abbrev RegIndex := BitVec 4

end Sys2Proof
end

