-- ==== Sys2Proof/Config.lean ====
section
/-! DEFINITION. What is fixed for the machine but not by the spec: its identity strings (R2) and the free values, which
have no body so that nothing can be proved about them but what the spec states. -/

namespace Sys2Proof

/-- The name this model identifies itself by (R1, R2). -/
def Config.name : String := "LFSR-noise-generator"

/-- The identity string of R2; the block has no identification register. -/
def Config.identity : String := "LFSR-noise-generator, spec revision 1, written from source v7"

/-- Which primitive of R10 produced a NaN. -/
inductive NanSource where
  | add | mul | div
  deriving DecidableEq, Repr

/-- FREE VALUE (R14, D5; log entry 6): the raw choice behind `SIN64`, on the argument's bits. The properties R14 allows
a model to assume are imposed on it by `Sys2Proof.Machine.sin64`. -/
opaque Config.sinRaw : Word → Word

/-- FREE VALUE (R10; log entry 7): the bits, up to being a quiet NaN, of a NaN that a primitive returns for these operand
bits. The spec states that the result is a NaN and not which one. -/
opaque Config.nanBits : NanSource → Word → Word → Word

/-- FREE VALUE (R10; log entry 8): `fmod64` outside "finite x and finite nonzero y", where R10 gives no result. -/
opaque Config.fmodOutside : Word → Word → Word

end Sys2Proof
end

