-- ==== Sys2Proof/Syntax.lean ====
section
/-! DEFINITION. The commands of spec/opcode_table.json, the fields of a command word, and the host's transactions. -/

namespace Sys2Proof

/-- Generator kinds (R35, R74): 0 SILENCE, 1 SINE, 2 SQUARE, 3 NOISE. -/
inductive Kind where
  | silence | sine | square | noise
  deriving DecidableEq, Repr

/-- Noise tap modes (R75): 0 long (tap bit 1), 1 short (tap bit 6). -/
inductive Mode where
  | long | short
  deriving DecidableEq, Repr

/-- The nine commands (R73), one constructor per row of spec/opcode_table.json. No command has an operand field (R76). -/
inductive Instr where
  | nop        -- NOP
  | initSil    -- INIT.SIL
  | initSine   -- INIT.SINE
  | initSqr    -- INIT.SQR
  | initNoise  -- INIT.NOISE
  | initNoiseS -- INIT.NOISE.S
  | sample     -- SAMPLE
  | quant      -- QUANT
  | sampleq    -- SAMPLEQ
  deriving DecidableEq, Repr

/-- The fields of a command word (R71): OP in bits 3:0, KIND in 5:4, MODE in 6, RSV in 63:7. -/
structure Fields where
  op   : BitVec 4
  kind : BitVec 2
  mode : BitVec 1
  rsv  : BitVec 57
  deriving DecidableEq, Repr

/-- One host transaction (R52, R53, R79, R250). `cmd WORD` is `write 0x0 WORD`. -/
inductive Transaction where
  | write (idx : RegIndex) (v : Word)
  | read  (idx : RegIndex)
  | reset
  deriving DecidableEq, Repr

end Sys2Proof
end

