-- ==== Sys2Proof/WellFormed.lean ====
section
/-! DEFINITION. Which field values make a legal command word (R71, R73, R75, R77), one named check per way of being illegal. -/

namespace Sys2Proof

/-- OP values 0x5 to 0xF are reserved (R77). -/
def Fields.opLegal (f : Fields) : Bool := f.op.toNat ≤ 4

/-- KIND must be 0 for every OP but INIT (R71). -/
def Fields.kindLegal (f : Fields) : Bool := f.op == 1#4 || f.kind == 0#2

/-- MODE must be 0 unless the word is INIT with KIND = 3 (R71, R75). -/
def Fields.modeLegal (f : Fields) : Bool := (f.op == 1#4 && f.kind == 3#2) || f.mode == 0#1

/-- RSV must be 0 (R71). -/
def Fields.rsvLegal (f : Fields) : Bool := f.rsv == 0#57

/-- The fields of a legal word: none of the illegal forms R77 lists. -/
def Fields.wellFormed (f : Fields) : Bool := f.opLegal && f.kindLegal && f.modeLegal && f.rsvLegal

/-- The fields of each command (R73's OP, KIND and MODE columns). -/
def Instr.fields : Instr → Fields
  | .nop        => ⟨0x0, 0, 0, 0⟩
  | .initSil    => ⟨0x1, 0, 0, 0⟩
  | .initSine   => ⟨0x1, 1, 0, 0⟩
  | .initSqr    => ⟨0x1, 2, 0, 0⟩
  | .initNoise  => ⟨0x1, 3, 0, 0⟩
  | .initNoiseS => ⟨0x1, 3, 1, 0⟩
  | .sample     => ⟨0x2, 0, 0, 0⟩
  | .quant      => ⟨0x3, 0, 0, 0⟩
  | .sampleq    => ⟨0x4, 0, 0, 0⟩

/-- A command is well formed when its fields are. No constructor of `Instr` has an operand, so every command is. -/
def Instr.wellFormed (i : Instr) : Bool := i.fields.wellFormed

end Sys2Proof
end

