-- ==== Sys2Proof/Decode.lean ====
section
/-! DEFINITION. Decoding a command word (R72, R73), total on every 64-bit word, and the encoder from the fields of R71. -/

namespace Sys2Proof

/-- Why a word is no command: R72 has one reason, ILLEGAL. -/
inductive DecodeReject where
  | illegal
  deriving DecidableEq, Repr

/-- One row of spec/opcode_table.json. -/
structure OpcodeRow where
  mask  : Word
  value : Word
  instr : Instr
  deriving DecidableEq, Repr

/-- The nine rows of spec/opcode_table.json. "The mask of every row is 0xFFFFFFFFFFFFFFFF" (R72). -/
def opcodeTable : List OpcodeRow :=
  [ ⟨0xFFFFFFFFFFFFFFFF, 0x0000000000000000, .nop⟩,
    ⟨0xFFFFFFFFFFFFFFFF, 0x0000000000000001, .initSil⟩,
    ⟨0xFFFFFFFFFFFFFFFF, 0x0000000000000011, .initSine⟩,
    ⟨0xFFFFFFFFFFFFFFFF, 0x0000000000000021, .initSqr⟩,
    ⟨0xFFFFFFFFFFFFFFFF, 0x0000000000000031, .initNoise⟩,
    ⟨0xFFFFFFFFFFFFFFFF, 0x0000000000000071, .initNoiseS⟩,
    ⟨0xFFFFFFFFFFFFFFFF, 0x0000000000000002, .sample⟩,
    ⟨0xFFFFFFFFFFFFFFFF, 0x0000000000000003, .quant⟩,
    ⟨0xFFFFFFFFFFFFFFFF, 0x0000000000000004, .sampleq⟩ ]

/-- A word matches a row when it equals the row's value under its mask. -/
def OpcodeRow.matchesWord (r : OpcodeRow) (w : Word) : Bool := w &&& r.mask == r.value

/-- R72's `Decode`: a word equal to one of the nine legal words is that command, every other word is illegal. -/
def decode (w : Word) : Except DecodeReject Instr :=
  match opcodeTable.find? (fun r => r.matchesWord w) with
  | some r => .ok r.instr
  | none   => .error .illegal

/-- The fields of a word (R71). -/
def fieldsOfWord (w : Word) : Fields :=
  { op   := w.extractLsb' 0 4
    kind := w.extractLsb' 4 2
    mode := w.extractLsb' 6 1
    rsv  := w.extractLsb' 7 57 }

/-- The word with the given fields (R71). -/
def wordOfFields (f : Fields) : Word := f.rsv ++ f.mode ++ f.kind ++ f.op

/-- The encoder: the word of a command, laid out from the fields of R71 and R73. -/
def encode (i : Instr) : Word := wordOfFields i.fields

/-- The instruction the decoder reads from a table word of `nbits` bits (bit 0 the least significant bit; the bits above
`nbits` are 0). A command is one 64-bit word written whole (R70), so the number is the word itself; a number that does
not fit in 64 bits is no command word. -/
def decodeTableWord (nbits w : Nat) : Option Instr :=
  if w % 2 ^ nbits < 2 ^ 64 then
    match decode (BitVec.ofNat 64 (w % 2 ^ nbits)) with
    | .ok i    => some i
    | .error _ => none
  else none

end Sys2Proof
end

