-- ==== Sys2Proof/Machine/Params.lean ====
section
/-! DEFINITION. The parameters of R5 and the named binary64 constants of R12, and the numeric codes of KIND and MODE. -/

namespace Sys2Proof.Machine

/-- `LFSR_SEED` (R5). -/
def lfsrSeed : Lfsr := 0x0001

/-- `LFSR_TAP_LONG` and `LFSR_TAP_SHORT` (R5, R163): the tap bit of each mode. -/
def tapBit : Mode → Nat
  | .long  => 1
  | .short => 6

/-- KIND's two-bit code (R74). -/
def kindCode : Kind → BitVec 2
  | .silence => 0
  | .sine    => 1
  | .square  => 2
  | .noise   => 3

/-- MODE's one-bit code (R75). -/
def modeCode : Mode → BitVec 1
  | .long  => 0
  | .short => 1

/-- +0.0 (R12). -/
def PZERO : Word := 0x0000000000000000
/-- -0.0 (R12). -/
def NZERO : Word := 0x8000000000000000
/-- 1.0 (R12). -/
def ONE : Word := 0x3FF0000000000000
/-- -1.0 (R12). -/
def MINUS_ONE : Word := 0xBFF0000000000000
/-- 2.0 (R12). -/
def TWO : Word := 0x4000000000000000
/-- 127.0 (R12). -/
def NUM127 : Word := 0x405FC00000000000
/-- The binary64 nearest 2π (R5, R12, D4). -/
def TWO_PI : Word := 0x401921FB54442D18

end Sys2Proof.Machine
end

