-- ==== Sys2Proof/Machine/State.lean ====
section
/-! DEFINITION. The state of the block (R20 to R41), the host's side of the port, and the state after reset. -/

namespace Sys2Proof.Machine

/-- STATUS (R30). The register reads as `Status.word` (Machine/Flags.lean); bits 63:8 read zero and hold nothing. -/
structure Status where
  /-- bit 0: a command failed in this render. -/
  err     : Bool
  /-- bits 4:1: the code of the first error in this render. -/
  errCode : BitVec 4
  /-- bit 5: a quantized amplitude was outside [-1.0, 1.0]. -/
  awarn   : Bool
  /-- bit 6: a quantized value was clamped to 0 or 255. -/
  cwarn   : Bool
  /-- bit 7: the last completed SAMPLE or SAMPLEQ advanced the LFSR. -/
  edge    : Bool
  deriving DecidableEq, Repr

/-- VOICE (R35). The register reads as `Voice.word` (Machine/Ops.lean); bits 63:3 read zero and hold nothing. -/
structure Voice where
  kind : Kind
  mode : Mode
  deriving DecidableEq, Repr

/-- The block's registers (R41) and, in the last two fields, the host's side of the port. -/
structure State where
  /-- FREQ, index 0x2 (R23). -/
  freq      : Word
  /-- VOL, index 0x3 (R24). -/
  vol       : Word
  /-- TIME, index 0x4 (R25). -/
  time      : Word
  /-- MVOL, index 0x5 (R26). -/
  mvol      : Word
  /-- AIN, index 0x6 (R27). -/
  ain       : Word
  /-- AMP, index 0x7 (R28). -/
  amp       : Word
  /-- PCM, index 0x8 (R29). -/
  pcm       : Byte
  /-- STATUS, index 0x1 (R30). -/
  status    : Status
  /-- VOICE, index 0x9 (R35). -/
  voice     : Voice
  /-- LFSR, index 0xA (R33). -/
  lfsr      : Lfsr
  /-- PHASE, index 0xB (R34). -/
  phase     : Word
  /-- FREQ_L, index 0xC (R36). -/
  freqL     : Word
  /-- VOL_L, index 0xD (R37). -/
  volL      : Word
  /-- The model's own: what the host has sent and the block has not yet performed, oldest first (R21, R60; log entry 1). -/
  pending   : List Transaction
  /-- The model's own: the values `rd` has returned to the host, oldest first (R53, R259; log entry 2). -/
  hostReads : List Word
  deriving DecidableEq, Repr

/-- Why the machine stops. No constructor: "Every transaction completes" (R259), and an error of the block is a value of
STATUS, after which the block goes on (R220, R224). Nothing raises a fault (safe; log entry 9). -/
inductive Fault where
  deriving DecidableEq, Repr

/-- Why a command has no meaning in the model. -/
inductive Refusal where
  /-- Raised only by an arm of `exec` whose command has no meaning yet (safe). No arm raises it. -/
  | notModelled (mnemonic : String)
  deriving DecidableEq, Repr

/-- STATUS after reset (R30): every field 0. -/
def Status.reset : Status :=
  { err := false, errCode := 0, awarn := false, cwarn := false, edge := false }

/-- The state after reset and at power-on (R41, R250, R251), with nothing sent by the host (log entries 1 and 2). -/
def State.reset : State :=
  { freq      := PZERO
    vol       := PZERO
    time      := PZERO
    mvol      := PZERO
    ain       := PZERO
    amp       := PZERO
    pcm       := 0x00
    status    := Status.reset
    voice     := { kind := .silence, mode := .long }
    lfsr      := lfsrSeed
    phase     := PZERO
    freqL     := PZERO
    volL      := PZERO
    pending   := []
    hostReads := [] }

end Sys2Proof.Machine
end

