-- ==== Sys2Proof/Machine/Flags.lean ====
section
/-! DEFINITION. STATUS: its error codes (R221), its word (R30) and every way a command changes a field of it. -/

namespace Sys2Proof.Machine

/-- The errors of R221. -/
inductive ErrorCode where
  | illegalCmd | badAccess | invalidFreq | invalidVol | invalidTime | argOverflow | invalidMvol | invalidAmp
  deriving DecidableEq, Repr

/-- ERRCODE of an error (R221). -/
def errorNumber : ErrorCode → BitVec 4
  | .illegalCmd  => 1
  | .badAccess   => 2
  | .invalidFreq => 3
  | .invalidVol  => 4
  | .invalidTime => 5
  | .argOverflow => 6
  | .invalidMvol => 7
  | .invalidAmp  => 8

/-- The word STATUS reads as (R30): ERR 0, ERRCODE 4:1, AWARN 5, CWARN 6, EDGE 7, zeros above. -/
def Status.word (st : Status) : Word :=
  0#56 ++ BitVec.ofBool st.edge ++ BitVec.ofBool st.cwarn ++ BitVec.ofBool st.awarn ++ st.errCode ++ BitVec.ofBool st.err

/-- STATUS after a successful INIT: ERR, ERRCODE, AWARN, CWARN, EDGE all 0 (R93). -/
def Status.cleared : Status :=
  { err := false, errCode := 0, awarn := false, cwarn := false, edge := false }

/-- STATUS after a failed INIT: its own error and nothing else (R93). -/
def Status.failedInit (c : ErrorCode) : Status :=
  { err := true, errCode := errorNumber c, awarn := false, cwarn := false, edge := false }

/-- STATUS after RecordError (R224): the first error of the render is kept. -/
def Status.record (c : ErrorCode) (st : Status) : Status :=
  if st.err then st else { st with err := true, errCode := errorNumber c }

/-- EDGE is rewritten by every completed SAMPLE and SAMPLEQ (R32, R101). -/
def Status.setEdge (e : Bool) (st : Status) : Status := { st with edge := e }

/-- AWARN and CWARN are set and never cleared by QUANT and SAMPLEQ (R191, R192, R230). -/
def Status.warn (aw cw : Bool) (st : Status) : Status :=
  { st with awarn := st.awarn || aw, cwarn := st.cwarn || cw }

end Sys2Proof.Machine
end

