-- ==== Sys2Proof/Machine/F64.lean ====
section
/-! DEFINITION. IEEE 754 binary64 values and the numeric primitives of R9 to R14, computed exactly on integers and rounded
once per call.

A finite value is kept as its sign and its magnitude counted in units of 2^-1074, the least positive binary64: every
finite binary64 is a whole number of these units, so sums, products, quotients and remainders are exact integer
arithmetic, and rounding is the one place where exactness ends. -/

namespace Sys2Proof.Machine

/-- A binary64 value (R9). `fin neg mag` is (-1)^neg × mag × 2^-1074; `nan` keeps the NaN's own bits. -/
inductive F64 where
  | nan (bits : Word)
  | inf (neg : Bool)
  | fin (neg : Bool) (mag : Nat)
  deriving DecidableEq, Repr

/-- Exponent field all ones, fraction zero: the code of infinity, without the sign bit. -/
def infCode : Nat := 2047 * 2 ^ 52

/-- The magnitude, in units of 2^-1074, of a finite code (biased exponent in bits 62:52, fraction in 51:0; R9). -/
def magOfCode (code : Nat) : Nat :=
  if code / 2 ^ 52 = 0 then code % 2 ^ 52
  else (2 ^ 52 + code % 2 ^ 52) * 2 ^ (code / 2 ^ 52 - 1)

/-- The integer nearest to n / d, the even one on a tie. -/
def nearestEven (n d : Nat) : Nat :=
  if 2 * (n % d) < d then n / d
  else if d < 2 * (n % d) then n / d + 1
  else n / d + n / d % 2

/-- How many bits a magnitude of at least q units has beyond the 53 of a significand: the last place of the binary64
numbers around it is 2^(that many) units. -/
def placeShift (q : Nat) : Nat := q.log2 - 52

/-- roundTiesToEven (R10): the code of the binary64 nearest to n / d units, exponent unbounded above. The significand m
and the place 2^k units give the code m + k × 2^52, also where m has only subnormal size or has carried to 2^53. -/
def roundCode (n d : Nat) : Nat :=
  nearestEven n (d * 2 ^ placeShift (n / d)) + placeShift (n / d) * 2 ^ 52

/-- The binary64 value of a code: infinite where the exponent range is exceeded. -/
def valueOfCode (neg : Bool) (code : Nat) : F64 :=
  if code < infCode then .fin neg (magOfCode code) else .inf neg

/-- The value nearest to n / d units with the given sign, overflow going to infinity (R10). -/
def roundTo (neg : Bool) (n d : Nat) : F64 := valueOfCode neg (roundCode n d)

/-- Read the bits of a register as a binary64 (R9). -/
def F64.ofBits (x : Word) : F64 :=
  if infCode < x.toNat % 2 ^ 63 then .nan x
  else valueOfCode (decide (2 ^ 63 ≤ x.toNat)) (x.toNat % 2 ^ 63)

/-- The sign bit over a 63-bit code (R9). -/
def withSign (neg : Bool) (code : Nat) : Word :=
  BitVec.ofNat 64 (if neg then 2 ^ 63 + code else code)

/-- The bits of a binary64 value (R9). -/
def F64.toBits : F64 → Word
  | .nan bits    => bits
  | .inf neg     => withSign neg infCode
  | .fin neg mag => withSign neg (roundCode mag 1)

/-- A NaN result: a quiet NaN whose sign and payload the spec does not state (log entry 7). -/
def nanResult (src : NanSource) (a b : F64) : F64 :=
  .nan (Config.nanBits src a.toBits b.toBits ||| 0x7FF8000000000000)

/-- The exact integer value of a finite magnitude with its sign, in units of 2^-1074. -/
def signedMag (neg : Bool) (mag : Nat) : Int := if neg then -(mag : Int) else mag

/-- One, in units of 2^-1074. -/
@[irreducible] def unitsOfOne : Nat := 2 ^ 1074

/-- `add64` (R10). An exact zero sum is +0.0 unless both operands are negative zeros. -/
def add64 : F64 → F64 → F64
  | .nan x,   b        => nanResult .add (.nan x) b
  | a,        .nan y   => nanResult .add a (.nan y)
  | .inf s,   .inf t   => if s = t then .inf s else nanResult .add (.inf s) (.inf t)
  | .inf s,   .fin _ _ => .inf s
  | .fin _ _, .inf t   => .inf t
  | .fin s m, .fin t n =>
    if signedMag s m + signedMag t n = 0 then .fin (s && t) 0
    else roundTo (decide (signedMag s m + signedMag t n < 0)) (signedMag s m + signedMag t n).natAbs 1

/-- `mul64` (R10). -/
def mul64 : F64 → F64 → F64
  | .nan x,   b        => nanResult .mul (.nan x) b
  | a,        .nan y   => nanResult .mul a (.nan y)
  | .inf s,   .inf t   => .inf (s ^^ t)
  | .inf s,   .fin t n => if n = 0 then nanResult .mul (.inf s) (.fin t n) else .inf (s ^^ t)
  | .fin s m, .inf t   => if m = 0 then nanResult .mul (.fin s m) (.inf t) else .inf (s ^^ t)
  | .fin s m, .fin t n => roundTo (s ^^ t) (m * n) unitsOfOne

/-- `div64` (R10). -/
def div64 : F64 → F64 → F64
  | .nan x,   b        => nanResult .div (.nan x) b
  | a,        .nan y   => nanResult .div a (.nan y)
  | .inf s,   .inf t   => nanResult .div (.inf s) (.inf t)
  | .inf s,   .fin t _ => .inf (s ^^ t)
  | .fin s _, .inf t   => .fin (s ^^ t) 0
  | .fin s m, .fin t n =>
    if n = 0 then
      if m = 0 then nanResult .div (.fin s m) (.fin t n) else .inf (s ^^ t)
    else roundTo (s ^^ t) (m * unitsOfOne) n

/-- `neg64` (R10): bit 63 inverted, on the register's bits. -/
def neg64 (a : Word) : Word := a ^^^ 0x8000000000000000

/-- `fmod64` (R10): x - y × trunc(x / y) exactly, with the sign of x, for finite x and finite nonzero y; outside that
domain R10 gives no result (free value, log entry 8). -/
def fmod64 : F64 → F64 → F64
  | .fin s m, .fin t n => if n = 0 then F64.ofBits (Config.fmodOutside (F64.toBits (.fin s m)) (F64.toBits (.fin t n)))
                          else .fin s (m % n)
  | a,        b        => F64.ofBits (Config.fmodOutside a.toBits b.toBits)

/-- `lt64` (R10): the ordered comparison; -0.0 and +0.0 are equal; false on a NaN. -/
def lt64 : F64 → F64 → Bool
  | .nan _,   _        => false
  | _,        .nan _   => false
  | .inf s,   .inf t   => s && !t
  | .inf s,   .fin _ _ => s
  | .fin _ _, .inf t   => !t
  | .fin s m, .fin t n => decide (signedMag s m < signedMag t n)

/-- `le64` (R10). -/
def le64 : F64 → F64 → Bool
  | .nan _,   _        => false
  | _,        .nan _   => false
  | .inf s,   .inf t   => s || !t
  | .inf s,   .fin _ _ => s
  | .fin _ _, .inf t   => !t
  | .fin s m, .fin t n => decide (signedMag s m ≤ signedMag t n)

/-- `gt64` (R10). -/
def gt64 (a b : F64) : Bool := lt64 b a

/-- `isNaN` (R10). -/
def isNaN : F64 → Bool
  | .nan _   => true
  | .inf _   => false
  | .fin _ _ => false

/-- `isFinite` (R10). -/
def isFinite : F64 → Bool
  | .nan _   => false
  | .inf _   => false
  | .fin _ _ => true

/-- An integer, or one of the symbols +INF and -INF (R10, R13). -/
inductive ExtInt where
  | negInf
  | int (n : Int)
  | posInf
  deriving DecidableEq, Repr

/-- `floorZ` (R10): the greatest integer not above the value, or the infinity's symbol. "It is never applied to a NaN":
there, and only there, it has no result. -/
def floorZ : F64 → Option ExtInt
  | .nan _   => none
  | .inf neg => some (if neg then .negInf else .posInf)
  | .fin s m => some (.int (signedMag s m / (unitsOfOne : Int)))

/-- n < bound, with -INF below and +INF above every integer (R13). -/
def ExtInt.below : ExtInt → Int → Bool
  | .negInf, _ => true
  | .int n,  b => decide (n < b)
  | .posInf, _ => false

/-- n > bound (R13). -/
def ExtInt.above : ExtInt → Int → Bool
  | .negInf, _ => false
  | .int n,  b => decide (b < n)
  | .posInf, _ => true

/-- `clampZ` (R13). -/
def clampZ (n : ExtInt) (lo hi : Int) : Int :=
  match n with
  | .negInf => lo
  | .posInf => hi
  | .int k  => if k < lo then lo else if hi < k then hi else k

/-- A value in [-1.0, 1.0] is kept, any other becomes +0.0: the bound of R14 (b) on a free choice. -/
def withinUnit (y : F64) : F64 :=
  if isFinite y && le64 (F64.ofBits MINUS_ONE) y && le64 y (F64.ofBits ONE) then y else .fin false 0

/-- `SIN64` (R14): any function with properties (a) to (c) and none more. Zero keeps its sign (a); for every other finite
argument the free choice `Config.sinRaw` is taken within [-1.0, 1.0] (b); it depends on the argument alone (c). -/
def sin64 : F64 → F64
  | .nan x   => F64.ofBits (Config.sinRaw x)
  | .inf s   => F64.ofBits (Config.sinRaw (F64.toBits (.inf s)))
  | .fin s m => if m = 0 then .fin s 0 else withinUnit (F64.ofBits (Config.sinRaw (F64.toBits (.fin s m))))

/-- The binary64 nearest to a count (R205's `f64(i)`, "exact for i < 2^53"). -/
def f64OfNat (i : Nat) : F64 := roundTo false (i * unitsOfOne) 1

end Sys2Proof.Machine
end

