-- ==== Sys2Proof/Machine/Operands.lean ====
section
/-! DEFINITION. The operands of the commands: fixed registers read as binary64 values (R76), and the validity predicates a
command applies to them (R99, R100, R101). -/

namespace Sys2Proof.Machine

/-- FREQ as INIT reads it (R23, R93). -/
def freqOperand (s : State) : F64 := F64.ofBits s.freq
/-- VOL as INIT reads it (R24, R93). -/
def volOperand (s : State) : F64 := F64.ofBits s.vol
/-- TIME as SAMPLE and SAMPLEQ read it (R25). -/
def timeOperand (s : State) : F64 := F64.ofBits s.time
/-- MVOL as QUANT and SAMPLEQ read it (R26). -/
def mvolOperand (s : State) : F64 := F64.ofBits s.mvol
/-- AIN as QUANT reads it (R27). -/
def ainOperand (s : State) : F64 := F64.ofBits s.ain
/-- FREQ_L as SAMPLE and SAMPLEQ read it (R36). -/
def freqLOperand (s : State) : F64 := F64.ofBits s.freqL
/-- VOL_L as a SINE voice reads it (R37). -/
def volLOperand (s : State) : F64 := F64.ofBits s.volL
/-- PHASE as a NOISE voice reads it (R34). -/
def phaseOperand (s : State) : F64 := F64.ofBits s.phase

/-- The named constants of R12 as values. -/
def f64Zero : F64 := F64.ofBits PZERO
def f64One : F64 := F64.ofBits ONE
def f64MinusOne : F64 := F64.ofBits MINUS_ONE
def f64Two : F64 := F64.ofBits TWO
def f64Num127 : F64 := F64.ofBits NUM127
def f64TwoPi : F64 := F64.ofBits TWO_PI

/-- `FreqOK(k, f)` (R99). -/
def freqOK (k : Kind) (f : F64) : Bool :=
  match k with
  | .silence => true
  | .sine    => isFinite f && le64 f64Zero f
  | .square  => isFinite f && gt64 f f64Zero && isFinite (div64 f64One f)
  | .noise   => isFinite f && gt64 f f64Zero && isFinite (mul64 f f64Two)
                  && isFinite (div64 f64One (mul64 f f64Two))

/-- `VolOK(k, v)` (R100). -/
def volOK (k : Kind) (v : F64) : Bool :=
  match k with
  | .silence => true
  | .sine    => isFinite v
  | .square  => isFinite v
  | .noise   => true

/-- The time check of SAMPLE and SAMPLEQ (R101): not a NaN, finite, not less than zero. -/
def timeOK (t : F64) : Bool := !(isNaN t || !isFinite t || lt64 t f64Zero)

/-- A square voice's period (R140). -/
def squarePeriod (f : F64) : F64 := div64 f64One f

/-- A noise voice's half period (R161). -/
def halfPeriod (f : F64) : F64 := div64 f64One (mul64 f f64Two)

end Sys2Proof.Machine
end

