-- ==== Sys2Proof/Machine/Ops.lean ====
section
/-! DEFINITION. The operations over the registers that the commands and the port share: the port's reads and stores, recording
an error, reset, and the commits of INIT, SAMPLE and QUANT. -/

namespace Sys2Proof.Machine

/-- The word VOICE reads as (R35): KIND 1:0, MODE 2, zeros above. -/
def Voice.word (v : Voice) : Word := 0#61 ++ modeCode v.mode ++ kindCode v.kind

/-- The value each index reads as (R51, R53). Reading changes nothing. -/
def portRead (s : State) (idx : RegIndex) : Word :=
  match idx.toNat with
  | 0x0 => 0
  | 0x1 => s.status.word
  | 0x2 => s.freq
  | 0x3 => s.vol
  | 0x4 => s.time
  | 0x5 => s.mvol
  | 0x6 => s.ain
  | 0x7 => s.amp
  | 0x8 => s.pcm.setWidth 64
  | 0x9 => s.voice.word
  | 0xA => s.lfsr.setWidth 64
  | 0xB => s.phase
  | 0xC => s.freqL
  | 0xD => s.volL
  | _   => 0

/-- RecordError (R224), the one way an error other than a failed INIT reaches STATUS. It writes STATUS and nothing else:
no control transfer, no saved register, no mode change (R220, R226). -/
def recordError (c : ErrorCode) (s : State) : State := { s with status := s.status.record c }

/-- A port write to an index other than CMD (R52): the five operand registers store, always and bit for bit; a read-only
or reserved index records BAD_ACCESS and changes nothing else. -/
def portStore (idx : RegIndex) (v : Word) (s : State) : State :=
  match idx.toNat with
  | 0x2 => { s with freq := v }
  | 0x3 => { s with vol := v }
  | 0x4 => { s with time := v }
  | 0x5 => { s with mvol := v }
  | 0x6 => { s with ain := v }
  | _   => recordError .badAccess s

/-- The reset event (R250): every register at its reset value. What the host has sent and received is the host's and stays. -/
def resetBlock (s : State) : State :=
  { State.reset with pending := s.pending, hostReads := s.hostReads }

/-- The first failing check of INIT in R93's order, FREQ before VOL (R223). -/
def initError (k : Kind) (s : State) : Option ErrorCode :=
  if !freqOK k (freqOperand s) then some .invalidFreq
  else if !volOK k (volOperand s) then some .invalidVol
  else none

/-- A successful INIT (R93): STATUS cleared, the voice latched, the noise state reseeded; AMP and PCM unchanged. -/
def latchVoice (k : Kind) (m : Mode) (s : State) : State :=
  { s with
    status := Status.cleared
    voice  := { kind := k, mode := m }
    freqL  := s.freq
    volL   := s.vol
    lfsr   := lfsrSeed
    phase  := PZERO }

/-- `Init(k, m)` (R93), the common body of the five INIT commands. It runs whatever STATUS.ERR holds and never raises. -/
def initVoice (k : Kind) (m : Mode) (s : State) : State :=
  match initError k s with
  | some c => { s with status := Status.failedInit c }
  | none   => latchVoice k m s

/-- What one sample of the voice yields (R101): the amplitude's bits, whether the LFSR advanced, and the noise state after
it (unchanged on a voice that is not NOISE). -/
structure Sampled where
  amp   : Word
  edge  : Bool
  lfsr  : Lfsr
  phase : Word
  deriving DecidableEq, Repr

/-- What the quantizer yields (R190): the byte and the two warnings. -/
structure Quantized where
  pcm   : Byte
  awarn : Bool
  cwarn : Bool
  deriving DecidableEq, Repr

/-- The register writes of a completed sample (R101), taking effect together (R225). -/
def commitSample (r : Sampled) (s : State) : State :=
  { s with amp := r.amp, lfsr := r.lfsr, phase := r.phase, status := s.status.setEdge r.edge }

/-- The register writes of a completed quantization (R191). -/
def commitQuant (q : Quantized) (s : State) : State :=
  { s with pcm := q.pcm, status := s.status.warn q.awarn q.cwarn }

/-- The gate of R90 and R91: while STATUS.ERR = 1 the command is refused by the block and changes nothing. -/
def unlessError (s : State) (run : State) : State := if s.status.err then s else run

end Sys2Proof.Machine
end

