-- ==== Sys2Proof/Machine/Init.lean ====
section
/-! DEFINITION. The five INIT commands (R93 to R98). -/

namespace Sys2Proof.Machine

/-- INIT.SIL (R94). -/
def execInitSil (s : State) : Host.Outcome State Fault Refusal := .next (initVoice .silence .long s)

/-- INIT.SINE (R95). -/
def execInitSine (s : State) : Host.Outcome State Fault Refusal := .next (initVoice .sine .long s)

/-- INIT.SQR (R96). -/
def execInitSqr (s : State) : Host.Outcome State Fault Refusal := .next (initVoice .square .long s)

/-- INIT.NOISE (R97). -/
def execInitNoise (s : State) : Host.Outcome State Fault Refusal := .next (initVoice .noise .long s)

/-- INIT.NOISE.S (R98). -/
def execInitNoiseS (s : State) : Host.Outcome State Fault Refusal := .next (initVoice .noise .short s)

end Sys2Proof.Machine
end

