-- ==== Sys2Proof/Machine/Nop.lean ====
section
/-! DEFINITION. NOP (R92). -/

namespace Sys2Proof.Machine

/-- NOP (R92): it changes no register, whatever STATUS.ERR holds. -/
def execNop (s : State) : Host.Outcome State Fault Refusal := .next s

end Sys2Proof.Machine
end

