-- ==== Sys2Proof/Machine/Generator.lean ====
section
/-! DEFINITION. The four generators: SILENCE (R102), SINE (R120 to R123), SQUARE (R140 to R142) and NOISE (R160 to R173). -/

namespace Sys2Proof.Machine

/-- The sample of a stateless voice with amplitude `a`: no edge, LFSR and PHASE as they are (R101, D38). -/
def statelessSample (a : Word) (s : State) : Sampled :=
  { amp := a, edge := false, lfsr := s.lfsr, phase := s.phase }

/-- The sine's argument, time × 2π × frequency left to right (R11, R121). DEDUCED (log entry 15): the sign of a zero argument
is the exclusive-or of the signs of time and frequency, as the formula gives it, also where R122's words on a zero time or
frequency leave a negative zero out. -/
def sineArg (t f : F64) : F64 := mul64 (mul64 t f64TwoPi) f

/-- `SineAmp(t)` (R121). -/
def sineAmp (s : State) : Except ErrorCode Word :=
  if isFinite (sineArg (timeOperand s) (freqLOperand s)) then
    .ok (mul64 (sin64 (sineArg (timeOperand s) (freqLOperand s))) (volLOperand s)).toBits
  else .error .argOverflow

/-- Whether a square voice is in its negative phase: strictly beyond half a period (R140, R141). -/
def squareNegative (t f : F64) : Bool :=
  gt64 (fmod64 t (squarePeriod f)) (div64 (squarePeriod f) f64Two)

/-- `SquareAmp(t)` (R140). -/
def squareAmp (s : State) : Word :=
  if squareNegative (timeOperand s) (freqLOperand s) then neg64 s.volL else s.volL

/-- `Advance(b, m)` (R163): feedback from bit 0 and the tap, inserted at bit 14, and then the shift. -/
def advance (b : Lfsr) (m : Mode) : Lfsr :=
  ((b &&& 0x3FFF#15) ||| ((BitVec.ofBool (b.getLsbD 0 ^^ b.getLsbD (tapBit m))).setWidth 15 <<< 14)) >>> 1

/-- The noise amplitude, from bit 0 of the register (R164). -/
def noiseAmp (b : Lfsr) : Word := if b.getLsbD 0 then ONE else MINUS_ONE

/-- The phase of a time in the half period (R161). -/
def noisePhase (s : State) : F64 := fmod64 (timeOperand s) (halfPeriod (freqLOperand s))

/-- The phase-wrap detector (R162). -/
def noiseEdge (s : State) : Bool := lt64 (noisePhase s) (phaseOperand s)

/-- The shift register after the sample: at most one advance (R165). -/
def noiseLfsr (s : State) : Lfsr := if noiseEdge s then advance s.lfsr s.voice.mode else s.lfsr

/-- `NoiseStep(t)` (R165). -/
def noiseStep (s : State) : Sampled :=
  { amp := noiseAmp (noiseLfsr s), edge := noiseEdge s, lfsr := noiseLfsr s, phase := (noisePhase s).toBits }

/-- The sample of the voice at TIME (R101): the time check, then the generator of VOICE.KIND. -/
def sampleVoice (s : State) : Except ErrorCode Sampled :=
  if timeOK (timeOperand s) then
    match s.voice.kind with
    | .silence => .ok (statelessSample PZERO s)
    | .sine    => (sineAmp s).map (fun a => statelessSample a s)
    | .square  => .ok (statelessSample (squareAmp s) s)
    | .noise   => .ok (noiseStep s)
  else .error .invalidTime

end Sys2Proof.Machine
end

