-- ==== Sys2Proof/Machine/Quantizer.lean ====
section
/-! DEFINITION. The PCM quantizer (R190, R193, R194). -/

namespace Sys2Proof.Machine

/-- The value before the floor, amplitude × 127 × masterVolume + 127 left to right (R11, R190). -/
def quantValue (a mv : F64) : F64 := add64 (mul64 (mul64 a f64Num127) mv) f64Num127

/-- Whether the amplitude is outside [-1.0, 1.0] (R193). -/
def amplitudeWarning (a : F64) : Bool := lt64 a f64MinusOne || gt64 a f64One

/-- Whether the floored value is outside [0, 255] (R194). -/
def clampWarning (n : ExtInt) : Bool := n.below 0 || n.above 255

/-- The byte of a floored value (R190). -/
def pcmByte (n : ExtInt) : Byte := BitVec.ofInt 8 (clampZ n 0 255)

/-- `Quantize(a, mv)` (R190): INVALID_MVOL, then INVALID_AMP where the value is a NaN (there, and only there, `floorZ` has
no result), then floor and clamp. -/
def quantize (a mv : F64) : Except ErrorCode Quantized :=
  if isFinite mv then
    match floorZ (quantValue a mv) with
    | none   => .error .invalidAmp
    | some n => .ok { pcm := pcmByte n, awarn := amplitudeWarning a, cwarn := clampWarning n }
  else .error .invalidMvol

end Sys2Proof.Machine
end

