-- ==== Sys2Proof/Machine/Quant.lean ====
section
/-! DEFINITION. QUANT (R191) and SAMPLEQ (R192). -/

namespace Sys2Proof.Machine

/-- `Quant()` (R191). -/
def quantBody (s : State) : State :=
  match quantize (ainOperand s) (mvolOperand s) with
  | .ok q    => commitQuant q s
  | .error c => recordError c s

/-- `SampleQ()` (R192): both halves are computed first, and written only when neither raised an error. -/
def sampleqBody (s : State) : State :=
  match sampleVoice s with
  | .error c => recordError c s
  | .ok r =>
    match quantize (F64.ofBits r.amp) (mvolOperand s) with
    | .error c => recordError c s
    | .ok q    => commitQuant q (commitSample r s)

/-- QUANT (R90, R191), refused by the block while STATUS.ERR = 1 (R91). -/
def execQuant (s : State) : Host.Outcome State Fault Refusal := .next (unlessError s (quantBody s))

/-- SAMPLEQ (R90, R192), refused by the block while STATUS.ERR = 1 (R91). -/
def execSampleq (s : State) : Host.Outcome State Fault Refusal := .next (unlessError s (sampleqBody s))

end Sys2Proof.Machine
end

