-- ==== Sys2Proof/Machine/Sample.lean ====
section
/-! DEFINITION. SAMPLE (R101). -/

namespace Sys2Proof.Machine

/-- `Sample()` (R101): commit the sample, or record its error and write nothing else. -/
def sampleBody (s : State) : State :=
  match sampleVoice s with
  | .ok r    => commitSample r s
  | .error c => recordError c s

/-- SAMPLE (R90, R101), refused by the block while STATUS.ERR = 1 (R91). -/
def execSample (s : State) : Host.Outcome State Fault Refusal := .next (unlessError s (sampleBody s))

end Sys2Proof.Machine
end

