-- ==== Sys2Proof/Machine/Dispatch.lean ====
section
/-! DEFINITION. The dispatch of a decoded command to its meaning (R90), one arm per constructor of Instr. -/

namespace Sys2Proof.Machine

def exec (i : Instr) (s : State) : Host.Outcome State Fault Refusal :=
  match i with
  | .nop => Sys2Proof.Machine.execNop s
  | .initSil => Sys2Proof.Machine.execInitSil s
  | .initSine => Sys2Proof.Machine.execInitSine s
  | .initSqr => Sys2Proof.Machine.execInitSqr s
  | .initNoise => Sys2Proof.Machine.execInitNoise s
  | .initNoiseS => Sys2Proof.Machine.execInitNoiseS s
  | .sample => Sys2Proof.Machine.execSample s
  | .quant => Sys2Proof.Machine.execQuant s
  | .sampleq => Sys2Proof.Machine.execSampleq s

end Sys2Proof.Machine
end

