-- ==== Sys2Proof/Machine/Port.lean ====
section
/-! DEFINITION. The host port: command execution (R90), port writes (R52), port reads (R53) and reset (R250), and the order in
which the host's transactions are performed (R60). -/

namespace Sys2Proof.Machine

/-- `ExecuteCommand(w)` (R90): decode first; an illegal word records ILLEGAL_CMD and nothing else is checked (R223). -/
def executeCommand (w : Word) (s : State) : Host.Outcome State Fault Refusal :=
  match decode w with
  | .ok i    => exec i s
  | .error _ => .next (recordError .illegalCmd s)

/-- `PortWrite(idx, v)` (R52). -/
def portWrite (idx : RegIndex) (v : Word) (s : State) : Host.Outcome State Fault Refusal :=
  if idx = 0x0 then executeCommand v s else .next (portStore idx v s)

/-- A read transaction hands the host the value of `PortRead(idx)` and changes no register (R53). -/
def deliverRead (idx : RegIndex) (s : State) : State :=
  { s with hostReads := s.hostReads ++ [portRead s idx] }

/-- One host transaction, whole (R60). -/
def transact (t : Transaction) (s : State) : Host.Outcome State Fault Refusal :=
  match t with
  | .write idx v => portWrite idx v s
  | .read idx    => .next (deliverRead idx s)
  | .reset       => .next (resetBlock s)

/-- The next transaction, in the order the host issued them (R21, R60). With none the block takes no step of its own and
holds its state unchanged (R20, R237). -/
def serveHost (s : State) : Host.Outcome State Fault Refusal :=
  match s.pending with
  | []        => .next s
  | t :: rest => transact t { s with pending := rest }

/-- The same state with one more command, `cmd WORD` (R79), in front of what the host has sent. -/
def placeCommand (w : Word) (s : State) : State :=
  { s with pending := .write 0x0 w :: s.pending }

end Sys2Proof.Machine
end

