-- ==== Sys2Proof/Machine/Step.lean ====
section
/-! DEFINITION. One step of the machine: one host transaction (R60). -/

namespace Sys2Proof.Machine

/-- One step: the next host transaction, whole, or nothing when the host has sent none (R20, R60). -/
def step (s : State) : Host.Outcome State Fault Refusal := serveHost s

/-- The block fetches nothing (R63): its next command is the data word of the next CMD write. So a command word is placed
as a CMD write in front of the pending transactions; the bits above `nbits` are 0 (log entry 1). -/
def State.withFetchWord (s : State) (nbits w : Nat) : State :=
  placeCommand (BitVec.ofNat 64 (w % 2 ^ nbits)) s

end Sys2Proof.Machine
end

