-- ==== Sys2Proof/Machine/Render.lean ====
section
/-! DEFINITION. The host's procedures as lists of transactions: the register names (R41, R79), the pseudo-instructions (R80),
the render loop (R205), its sample count (R207) and the hand-off (R206). They are the host's, not the block's (R4). -/

namespace Sys2Proof.Machine

/-- The register names of R41, which R79's `wr` and `rd` use. -/
inductive RegName where
  | cmd | status | freq | vol | time | mvol | ain | amp | pcm | voice | lfsr | phase | freqL | volL
  deriving DecidableEq, Repr

/-- The index of a named register (R41). -/
def regIndex : RegName → RegIndex
  | .cmd    => 0x0
  | .status => 0x1
  | .freq   => 0x2
  | .vol    => 0x3
  | .time   => 0x4
  | .mvol   => 0x5
  | .ain    => 0x6
  | .amp    => 0x7
  | .pcm    => 0x8
  | .voice  => 0x9
  | .lfsr   => 0xA
  | .phase  => 0xB
  | .freqL  => 0xC
  | .volL   => 0xD

/-- `wr NAME, v` (R79). -/
def wr (n : RegName) (v : Word) : Transaction := .write (regIndex n) v
/-- `rd NAME` (R79). -/
def rd (n : RegName) : Transaction := .read (regIndex n)
/-- `cmd MNEMONIC` (R79): a write of the mnemonic's word to index 0x0. -/
def cmd (i : Instr) : Transaction := .write 0x0 (encode i)
/-- `rst` (R79). -/
def rst : Transaction := .reset

/-- The INIT command of a kind and mode; a mode other than long exists for NOISE alone (R73, R75). -/
def initCommand : Kind → Mode → Instr
  | .silence, _      => .initSil
  | .sine,    _      => .initSine
  | .square,  _      => .initSqr
  | .noise,   .long  => .initNoise
  | .noise,   .short => .initNoiseS

/-- `voice KIND, f, v` (R80). -/
def pseudoVoice (k : Kind) (m : Mode) (f v : Word) : List Transaction :=
  [wr .freq f, wr .vol v, cmd (initCommand k m)]
/-- `sample t` (R80). -/
def pseudoSample (t : Word) : List Transaction := [wr .time t, cmd .sample, rd .amp]
/-- `quant a` (R80). -/
def pseudoQuant (a : Word) : List Transaction := [wr .ain a, cmd .quant, rd .pcm]
/-- `sampleq t` (R80). -/
def pseudoSampleq (t : Word) : List Transaction := [wr .time t, cmd .sampleq, rd .pcm]
/-- `check` (R80). -/
def pseudoCheck : List Transaction := [rd .status]

/-- The sample count `floorZ(mul64(SR, len))` (R207); none where the product is not finite. -/
def sampleCount (sr len : Word) : Option Nat :=
  match floorZ (mul64 (F64.ofBits sr) (F64.ofBits len)) with
  | some (.int n) => some n.toNat
  | _             => none

/-- TIME of sample i, `div64(f64(i), SR)` (R205). -/
def sampleTime (sr : Word) (i : Nat) : Word := (div64 (f64OfNat i) (F64.ofBits sr)).toBits

/-- One iteration of R205's loop: write TIME, SAMPLEQ, read PCM. -/
def renderStep (sr : Word) (i : Nat) : List Transaction := pseudoSampleq (sampleTime sr i)

/-- `Render` (R205) with n samples: set up, the loop over increasing i, and the closing read of STATUS. -/
def renderTransactions (k : Kind) (m : Mode) (f v mv sr : Word) (n : Nat) : List Transaction :=
  [wr .freq f, wr .vol v, wr .mvol mv, cmd (initCommand k m)]
    ++ (List.range n).flatMap (renderStep sr) ++ pseudoCheck

/-- The host's buffer from what it read, the bytes in sample order and STATUS last: the bytes, or none when the render
failed (R205, R227). -/
def renderedBuffer (reads : List Word) : Option (List Byte) :=
  match reads.getLast? with
  | some st => if st.getLsbD 0 then none else some (reads.dropLast.map (fun w => w.extractLsb' 0 8))
  | none    => none

/-- What the host hands to the container writer (R206). -/
structure HandOff where
  channels      : Nat
  bitsPerSample : Nat
  signed        : Bool
  sampleRate    : Word
  bytes         : List Byte
  deriving DecidableEq, Repr

/-- One channel, 8 bits per sample, unsigned, the render's sample rate, each byte one sample in order (R206). -/
def handOff (sr : Word) (bytes : List Byte) : HandOff :=
  { channels := 1, bitsPerSample := 8, signed := false, sampleRate := sr, bytes := bytes }

/-- The reference default sample rate, 44100 Hz (R206). -/
def defaultSampleRate : Word := 0x40E5888000000000

end Sys2Proof.Machine
end

