-- ==== Sys2Proof/Safety.lean ====
section
/-! DEFINITION. The terms the claims use: the rational value of a binary64 and what "rounded once" means (R10), the invariant of
every render, and which transactions can end an error state. -/

namespace Sys2Proof.Machine

/-- The rational value of a finite binary64 (R9); the others have none, and 0 stands there. -/
def F64.toRat : F64 → ℚ
  | .fin s m => (signedMag s m : ℚ) / 2 ^ 1074
  | .inf _   => 0
  | .nan _   => 0

/-- The largest finite binary64 plus half its last place: from here on rounding to nearest overflows (R10). -/
def overflowBound : ℚ := 2 ^ 1024 - 2 ^ 970

/-- `r` is `exact` rounded once, roundTiesToEven (R10): no finite binary64 is nearer, a tie with another value falls on
the even code, and the result is an infinity of the exact value's sign exactly when the magnitude reaches the overflow
bound. -/
def RoundedOnce (exact : ℚ) (r : F64) : Prop :=
  (|exact| < overflowBound →
    isFinite r = true ∧
    ∀ z : Word, isFinite (F64.ofBits z) = true →
      |exact - r.toRat| ≤ |exact - (F64.ofBits z).toRat| ∧
      (|exact - r.toRat| = |exact - (F64.ofBits z).toRat| → (F64.ofBits z).toRat ≠ r.toRat →
        r.toBits.getLsbD 0 = false)) ∧
  (overflowBound ≤ |exact| → r = .inf (decide (exact < 0)))

/-- A sample phase: finite and not below zero (R34, R161). -/
def phaseOK (p : F64) : Bool := isFinite p && !lt64 p f64Zero

/-- What holds of the registers at every point of every render. -/
structure State.Inv (s : State) : Prop where
  /-- "When ERR is 0, ERRCODE is 0." (R31) -/
  noErrorNoCode : s.status.err = false → s.status.errCode = 0
  /-- "When ERR is 1, ERRCODE is one of the codes 1 to 8." (R31, R221) -/
  errorHasCode  : s.status.err = true → 1 ≤ s.status.errCode.toNat ∧ s.status.errCode.toNat ≤ 8
  /-- MODE is "always 0 unless KIND = NOISE" (R35). -/
  modeOnlyNoise : s.voice.kind ≠ .noise → s.voice.mode = .long
  /-- The latched frequency passed its check (R93, R99). -/
  freqLatchedOK : freqOK s.voice.kind (F64.ofBits s.freqL) = true
  /-- The latched volume passed its check (R93, R100). -/
  volLatchedOK  : volOK s.voice.kind (F64.ofBits s.volL) = true
  /-- "LFSR[14] = 0 at every point of a render." (R166) -/
  lfsrTopClear  : s.lfsr.getLsbD 14 = false
  /-- "LFSR != 0 throughout every render" (R167). -/
  lfsrNonzero   : s.lfsr ≠ 0
  /-- PHASE is finite and not below zero (R34, R161). -/
  phaseLegal    : phaseOK (F64.ofBits s.phase) = true
  /-- On a NOISE voice PHASE lies below the half period (R161, R165). -/
  phaseBelowHalf : s.voice.kind = .noise →
    lt64 (F64.ofBits s.phase) (halfPeriod (F64.ofBits s.freqL)) = true
  /-- "NaN/Inf never reaches AMP" (R103, R222). -/
  ampFinite     : isFinite (F64.ofBits s.amp) = true

/-- The five commands that construct a voice (R93). -/
def isInit : Instr → Bool
  | .nop        => false
  | .initSil    => true
  | .initSine   => true
  | .initSqr    => true
  | .initNoise  => true
  | .initNoiseS => true
  | .sample     => false
  | .quant      => false
  | .sampleq    => false

/-- A port write that executes an INIT command. -/
def isInitWrite : Transaction → Bool
  | .write idx v => decide (idx = 0x0) && (match decode v with | .ok i => isInit i | .error _ => false)
  | .read _      => false
  | .reset       => false

/-- The transactions that can end an error state: an INIT command or reset (R31, R227). -/
def startsAfresh : Transaction → Bool
  | .write idx v => isInitWrite (.write idx v)
  | .read _      => false
  | .reset       => true

/-- A read of FREQ or VOL, the one way the host sees them (R23, R24). -/
def readsFreqOrVol : Transaction → Bool
  | .write _ _ => false
  | .read idx  => decide (idx = 0x2) || decide (idx = 0x3)
  | .reset     => false

/-- The state with STATUS.ERR set and the given code, everything else as it was: what RecordError leaves when ERR was 0. -/
def State.withErrorCode (code : BitVec 4) (s : State) : State :=
  { s with status := { s.status with err := true, errCode := code } }

/-- Performing the host's transactions `ts` in order from `s` (R21, R60). -/
def runHost (ts : List Transaction) (s : State) : Host.Outcome State Fault Refusal :=
  Sys2Proof.core.run ts.length { s with pending := ts }

/-- The integer part toward zero (R195's `truncZ`), or the infinity's symbol; none on a NaN. -/
def truncZ : F64 → Option ExtInt
  | .nan _   => none
  | .inf neg => some (if neg then .negInf else .posInf)
  | .fin s m => some (.int (signedMag s (m / unitsOfOne)))

/-- +0.0 or -0.0 (R197). -/
def isZeroWord (x : Word) : Bool := x == PZERO || x == NZERO

end Sys2Proof.Machine
end

