-- ==== Sys2Proof/Certificates/Slice0/Obligations.lean ====
section
/-! DEFINITION. The statements about the block, one for each obligation of OBLIGATIONS.json. Each docstring names the rules of
spec/ the statement formalises. -/

open Sys2Proof Sys2Proof.Machine

/-! ### Encoding (30_encoding.md) -/

/-- R73's table: the word of each mnemonic, and the OP, KIND and MODE fields the word carries, its reserved bits 0. -/
def Obligations.NineWordsDecodeToTheirCommands : Prop :=
  ∀ row ∈ ([ (0x0000000000000000, .nop,        0x0, 0, 0),
             (0x0000000000000001, .initSil,    0x1, 0, 0),
             (0x0000000000000011, .initSine,   0x1, 1, 0),
             (0x0000000000000021, .initSqr,    0x1, 2, 0),
             (0x0000000000000031, .initNoise,  0x1, 3, 0),
             (0x0000000000000071, .initNoiseS, 0x1, 3, 1),
             (0x0000000000000002, .sample,     0x2, 0, 0),
             (0x0000000000000003, .quant,      0x3, 0, 0),
             (0x0000000000000004, .sampleq,    0x4, 0, 0) ] : List (Word × Instr × BitVec 4 × BitVec 2 × BitVec 1)),
    decode row.1 = .ok row.2.1 ∧ encode row.2.1 = row.1 ∧
    fieldsOfWord row.1 = { op := row.2.2.1, kind := row.2.2.2.1, mode := row.2.2.2.2, rsv := 0 }

/-- R71 to R73: decoding and encoding agree in both directions, over all 64-bit words. -/
def Obligations.DecodeAndEncodeAgree : Prop :=
  (∀ i : Instr, decode (encode i) = .ok i) ∧ (∀ (w : Word) (i : Instr), decode w = .ok i → w = encode i)

/-- R71, R75, R77: a word is a command exactly when none of the illegal forms of R77 applies to its fields. -/
def Obligations.CommandsAreExactlyTheLegalFields : Prop :=
  ∀ w : Word, (∃ i, decode w = .ok i) ↔
    ((w.extractLsb' 0 4).toNat ≤ 4 ∧
     (w.extractLsb' 0 4 ≠ 1 → w.extractLsb' 4 2 = 0) ∧
     (¬ (w.extractLsb' 0 4 = 1 ∧ w.extractLsb' 4 2 = 3) → w.extractLsb' 6 1 = 0) ∧
     w.extractLsb' 7 57 = 0)

/-- R72: a word that is none of the nine runs as a failing command with code 1 and changes nothing but STATUS; a render
that has already failed keeps its STATUS. -/
def Obligations.OtherWordsFailWithIllegalCmd : Prop :=
  ∀ (w : Word) (s : State) (rest : List Transaction),
    (∀ i, w ≠ encode i) → s.pending = .write 0x0 w :: rest →
      decode w = .error .illegal ∧
      (s.status.err = false → step s = .next ({ s with pending := rest }.withErrorCode 1)) ∧
      (s.status.err = true → step s = .next { s with pending := rest })

/-! ### The port (20_memory.md) -/

/-- R90: a CMD write of a word that decodes runs that command, the transaction being taken off the host's list. -/
def Obligations.StepRunsTheDecodedCommand : Prop :=
  ∀ (s : State) (w : Word) (i : Instr) (rest : List Transaction),
    s.pending = .write 0x0 w :: rest → decode w = .ok i → i.wellFormed = true →
      step s = exec i { s with pending := rest }

/-- R60, R237, R259: every transaction completes. A step performs the next transaction whole, the host's list being the
model's own (log entry 1), and with none from the host the block holds its state; however many steps are run, from any
state, the block never stops. -/
def Obligations.EveryTransactionCompletes : Prop :=
  (∀ s : State, s.pending = [] → step s = .next s) ∧
  (∀ (s : State) (tr : Transaction) (rest : List Transaction), s.pending = tr :: rest →
    ∃ t : State, transact tr { s with pending := rest } = .next t ∧ step s = .next t ∧ t.pending = rest) ∧
  ∀ (n : Nat) (s : State), ∃ t : State, Sys2Proof.core.run n s = .next t ∧ t.pending = s.pending.drop n

/-- R51, R52, the five operand registers: a write stores the word in the register of its index, whatever STATUS holds, and
touches nothing else; that index then reads as the word and every other index as before. -/
def Obligations.OperandWritesStoreAndTouchNothingElse : Prop :=
  ∀ (s : State) (v : Word) (rest : List Transaction),
    (s.pending = .write 0x2 v :: rest → step s = .next { s with pending := rest, freq := v }) ∧
    (s.pending = .write 0x3 v :: rest → step s = .next { s with pending := rest, vol := v }) ∧
    (s.pending = .write 0x4 v :: rest → step s = .next { s with pending := rest, time := v }) ∧
    (s.pending = .write 0x5 v :: rest → step s = .next { s with pending := rest, mvol := v }) ∧
    (s.pending = .write 0x6 v :: rest → step s = .next { s with pending := rest, ain := v }) ∧
    ∀ idx : RegIndex, s.pending = .write idx v :: rest → 2 ≤ idx.toNat → idx.toNat ≤ 6 →
      ∃ t, step s = .next t ∧ portRead t idx = v ∧ (∀ j, j ≠ idx → portRead t j = portRead s j) ∧
        t.pending = rest ∧ t.hostReads = s.hostReads

/-- R52, R221: a write to a read-only or reserved index records code 2 unless an error stands, and changes nothing else. -/
def Obligations.OtherWritesRecordBadAccess : Prop :=
  ∀ (s : State) (idx : RegIndex) (v : Word) (rest : List Transaction),
    s.pending = .write idx v :: rest → idx = 1 ∨ 7 ≤ idx.toNat →
      (s.status.err = false → step s = .next ({ s with pending := rest }.withErrorCode 2)) ∧
      (s.status.err = true → step s = .next { s with pending := rest })

/-- R51, R53: the indices of the 64-bit registers read as those registers (STATUS, PCM, VOICE, LFSR, CMD and the reserved
indices are in the two statements after this), and any number of reads in a row return what the indices read as before
them and change no register. -/
def Obligations.ReadsReturnTheRegistersAndChangeNone : Prop :=
  (∀ s : State,
    portRead s 0x2 = s.freq ∧ portRead s 0x3 = s.vol ∧ portRead s 0x4 = s.time ∧ portRead s 0x5 = s.mvol ∧
    portRead s 0x6 = s.ain ∧ portRead s 0x7 = s.amp ∧ portRead s 0xB = s.phase ∧ portRead s 0xC = s.freqL ∧
    portRead s 0xD = s.volL) ∧
  ∀ (idxs : List RegIndex) (s : State),
    runHost (idxs.map .read) s =
      .next { s with pending := [], hostReads := s.hostReads ++ idxs.map (portRead s) }

/-- R30, R51: what STATUS reads as, bit by bit. -/
def Obligations.StatusReadsAsItsFields : Prop :=
  ∀ s : State,
    (portRead s 0x1).getLsbD 0 = s.status.err ∧ (portRead s 0x1).extractLsb' 1 4 = s.status.errCode ∧
    (portRead s 0x1).getLsbD 5 = s.status.awarn ∧ (portRead s 0x1).getLsbD 6 = s.status.cwarn ∧
    (portRead s 0x1).getLsbD 7 = s.status.edge ∧ (portRead s 0x1).extractLsb' 8 56 = 0

/-- R35, R38, R39, R51: CMD and the reserved indices read zero, and the unused bits of PCM, VOICE and LFSR read zero, the
used ones being the register. -/
def Obligations.UnusedBitsReadZero : Prop :=
  ∀ s : State,
    portRead s 0x0 = 0 ∧ portRead s 0xE = 0 ∧ portRead s 0xF = 0 ∧
    (portRead s 0x8).extractLsb' 0 8 = s.pcm ∧ (portRead s 0x8).extractLsb' 8 56 = 0 ∧
    (portRead s 0x9).extractLsb' 0 2 = kindCode s.voice.kind ∧
    (portRead s 0x9).extractLsb' 2 1 = modeCode s.voice.mode ∧ (portRead s 0x9).extractLsb' 3 61 = 0 ∧
    (portRead s 0xA).extractLsb' 0 15 = s.lfsr ∧ (portRead s 0xA).extractLsb' 15 49 = 0

/-- R250, R251: reset, applied in any state, leaves every register at the value R41 gives, which is also the power-on
state's. -/
def Obligations.ResetRestoresEveryRegister : Prop :=
  ∀ s : State, ∃ t, transact .reset s = .next t ∧
    t.status = { err := false, errCode := 0, awarn := false, cwarn := false, edge := false } ∧
    t.voice = { kind := .silence, mode := .long } ∧
    ∀ idx : RegIndex, portRead t idx = (if idx = 0xA then 0x0001 else 0x0) ∧
      portRead State.reset idx = (if idx = 0xA then 0x0001 else 0x0)

/-! ### NOP and INIT (40_generator.md) -/

/-- R92: NOP is the zero word and changes no register, whatever STATUS.ERR holds. -/
def Obligations.NopChangesNoRegister : Prop :=
  decode 0x0000000000000000 = .ok .nop ∧ ∀ s : State, exec .nop s = .next s

/-- R93, R94 to R98: each INIT command answers with its failing check's code alone in STATUS, FREQ checked before VOL,
whatever STATUS held, or with the latched voice, and touches nothing else. -/
def Obligations.InitLatchesTheVoiceOrFails : Prop :=
  ∀ (k : Kind) (m : Mode) (s : State), (k ≠ .noise → m = .long) →
    (freqOK k (F64.ofBits s.freq) = false →
      exec (initCommand k m) s =
        .next { s with status := { err := true, errCode := 3, awarn := false, cwarn := false, edge := false } }) ∧
    (freqOK k (F64.ofBits s.freq) = true → volOK k (F64.ofBits s.vol) = false →
      exec (initCommand k m) s =
        .next { s with status := { err := true, errCode := 4, awarn := false, cwarn := false, edge := false } }) ∧
    (freqOK k (F64.ofBits s.freq) = true → volOK k (F64.ofBits s.vol) = true →
      exec (initCommand k m) s =
        .next { s with
          status := { err := false, errCode := 0, awarn := false, cwarn := false, edge := false },
          voice := { kind := k, mode := m }, freqL := s.freq, volL := s.vol, lfsr := 0x0001, phase := PZERO })

/-- R99, as ranges of the register's bits: a SINE voice takes every finite frequency not below zero; a SQUARE voice
needs 1/f finite; a NOISE voice needs 2f and 1/(2f) finite. -/
def Obligations.FrequencyRangesOfEachKind : Prop :=
  ∀ x : Word,
    freqOK .silence (F64.ofBits x) = true ∧
    (freqOK .sine (F64.ofBits x) = true ↔ x.toNat ≤ 0x7FEFFFFFFFFFFFFF ∨ x = NZERO) ∧
    (freqOK .square (F64.ofBits x) = true ↔ 0x0004000000000001 ≤ x.toNat ∧ x.toNat ≤ 0x7FEFFFFFFFFFFFFF) ∧
    (freqOK .noise (F64.ofBits x) = true ↔ 0x0002000000000001 ≤ x.toNat ∧ x.toNat ≤ 0x7FDFFFFFFFFFFFFF)

/-- R100, R9: the volume of a SINE or SQUARE voice is refused exactly when its exponent field is all ones; the other two
kinds take any word. -/
def Obligations.VolumeMustBeFiniteForSineAndSquare : Prop :=
  ∀ x : Word,
    (volOK .sine (F64.ofBits x) = true ↔ x.extractLsb' 52 11 ≠ 0x7FF) ∧
    (volOK .square (F64.ofBits x) = true ↔ x.extractLsb' 52 11 ≠ 0x7FF) ∧
    volOK .silence (F64.ofBits x) = true ∧ volOK .noise (F64.ofBits x) = true

/-- R99's closing sentence: under FreqOK every period and half period computed later is finite and greater than zero. -/
def Obligations.LatchedFrequenciesGivePositivePeriods : Prop :=
  ∀ x : Word,
    (freqOK .square (F64.ofBits x) = true →
      isFinite (squarePeriod (F64.ofBits x)) = true ∧ gt64 (squarePeriod (F64.ofBits x)) f64Zero = true ∧
      isFinite (div64 (squarePeriod (F64.ofBits x)) f64Two) = true ∧
      gt64 (div64 (squarePeriod (F64.ofBits x)) f64Two) f64Zero = true) ∧
    (freqOK .noise (F64.ofBits x) = true →
      isFinite (halfPeriod (F64.ofBits x)) = true ∧ gt64 (halfPeriod (F64.ofBits x)) f64Zero = true)

/-- The frame of the five INIT commands (R93): they write STATUS, VOICE, FREQ_L, VOL_L, LFSR and PHASE, and when they
fail STATUS alone. -/
def Obligations.InitFrame : Prop :=
  ∀ (k : Kind) (m : Mode) (s t : State), (k ≠ .noise → m = .long) → exec (initCommand k m) s = .next t →
    t.freq = s.freq ∧ t.vol = s.vol ∧ t.time = s.time ∧ t.mvol = s.mvol ∧ t.ain = s.ain ∧
    t.amp = s.amp ∧ t.pcm = s.pcm ∧ t.pending = s.pending ∧ t.hostReads = s.hostReads ∧
    (t.status.err = true →
      t.voice = s.voice ∧ t.freqL = s.freqL ∧ t.volL = s.volL ∧ t.lfsr = s.lfsr ∧ t.phase = s.phase)

/-! ### SAMPLE (40_generator.md to 43_noise.md) -/

/-- R101, D17: the accepted times are exactly the finite ones not below zero, -0.0 among them, on every kind of voice; any
other time records code 5 and changes nothing else. -/
def Obligations.SampleTakesExactlyTheLegalTimes : Prop :=
  (∀ x : Word, timeOK (F64.ofBits x) = true ↔ x.toNat ≤ 0x7FEFFFFFFFFFFFFF ∨ x = NZERO) ∧
  ∀ s : State, s.status.err = false → timeOK (F64.ofBits s.time) = false →
    exec .sample s = .next (s.withErrorCode 5)

/-- R102: a SILENCE voice's amplitude is +0.0 at every accepted time, whatever FREQ_L and VOL_L hold. -/
def Obligations.SilenceSamplesZero : Prop :=
  ∀ s : State, s.status.err = false → timeOK (F64.ofBits s.time) = true → s.voice.kind = .silence →
    exec .sample s = .next { s with amp := 0x0000000000000000, status := { s.status with edge := false } }

/-- R121: a SINE voice's amplitude is SIN64(time × 2π × frequency) × volume, one rounding per operator, and code 6 where
the argument is not finite. -/
def Obligations.SineSamplesTheFormula : Prop :=
  ∀ s : State, s.status.err = false → timeOK (F64.ofBits s.time) = true → s.voice.kind = .sine →
    (isFinite (mul64 (mul64 (F64.ofBits s.time) f64TwoPi) (F64.ofBits s.freqL)) = true →
      exec .sample s =
        .next { s with
          amp := (mul64 (sin64 (mul64 (mul64 (F64.ofBits s.time) f64TwoPi) (F64.ofBits s.freqL)))
                    (F64.ofBits s.volL)).toBits,
          status := { s.status with edge := false } }) ∧
    (isFinite (mul64 (mul64 (F64.ofBits s.time) f64TwoPi) (F64.ofBits s.freqL)) = false →
      exec .sample s = .next (s.withErrorCode 6))

/-- R140, R141, in every state a render can be in: the phase of an accepted time lies in [0, period), or is -0.0; in the
closed half [0, half], the tie included, the amplitude is VOL_L bit for bit, and in the open half (half, period) it is
VOL_L with its sign bit inverted. -/
def Obligations.SquareSamplesItsTwoHalves : Prop :=
  ∀ s : State, s.Inv → s.status.err = false → timeOK (F64.ofBits s.time) = true → s.voice.kind = .square →
    let period := div64 f64One (F64.ofBits s.freqL)
    let half := div64 period f64Two
    let ph := fmod64 (F64.ofBits s.time) period
    le64 f64Zero ph = true ∧ lt64 ph period = true ∧
    (le64 ph half = true →
      exec .sample s = .next { s with amp := s.volL, status := { s.status with edge := false } }) ∧
    (le64 ph half = false →
      exec .sample s =
        .next { s with amp := s.volL ^^^ 0x8000000000000000, status := { s.status with edge := false } })

/-- R161 to R165: one noise sample, step by step as NoiseStep computes it. -/
def Obligations.NoiseSamplesTheShiftRegister : Prop :=
  ∀ s : State, s.status.err = false → timeOK (F64.ofBits s.time) = true → s.voice.kind = .noise →
    let hp := div64 f64One (mul64 (F64.ofBits s.freqL) f64Two)
    let ph := fmod64 (F64.ofBits s.time) hp
    let edge := lt64 ph (F64.ofBits s.phase)
    let b := if edge then advance s.lfsr s.voice.mode else s.lfsr
    exec .sample s =
      .next { s with
        lfsr := b, phase := ph.toBits, amp := (if b.getLsbD 0 then ONE else MINUS_ONE),
        status := { s.status with edge := edge } }

/-- The frame of SAMPLE (R101, R225): AMP and EDGE, LFSR and PHASE on a NOISE voice, ERR and ERRCODE on an error, and
nothing else; after an error not even those but ERR and ERRCODE. -/
def Obligations.SampleFrame : Prop :=
  ∀ s t : State, exec .sample s = .next t →
    t.freq = s.freq ∧ t.vol = s.vol ∧ t.time = s.time ∧ t.mvol = s.mvol ∧ t.ain = s.ain ∧ t.pcm = s.pcm ∧
    t.voice = s.voice ∧ t.freqL = s.freqL ∧ t.volL = s.volL ∧ t.pending = s.pending ∧ t.hostReads = s.hostReads ∧
    t.status.awarn = s.status.awarn ∧ t.status.cwarn = s.status.cwarn ∧
    (s.voice.kind ≠ .noise → t.lfsr = s.lfsr ∧ t.phase = s.phase) ∧
    (t.status.err = true →
      t.amp = s.amp ∧ t.lfsr = s.lfsr ∧ t.phase = s.phase ∧ t.status.edge = s.status.edge) ∧
    (t.status.err = false → t.status.errCode = s.status.errCode ∧ s.status.err = false)

/-- R104, R123: on a voice that is not NOISE a sample is repeatable, and taking one first changes no later amplitude, at
whatever time the later one is taken. -/
def Obligations.StatelessVoicesDoNotRememberSamples : Prop :=
  ∀ (s t : State) (x : Word), s.voice.kind ≠ .noise → s.status.err = false →
    exec .sample s = .next t → t.status.err = false →
      exec .sample t = .next t ∧
      ∃ u v, exec .sample { s with time := x } = .next u ∧ exec .sample { t with time := x } = .next v ∧
        v.status.err = u.status.err ∧ (u.status.err = false → v.amp = u.amp)

/-- R103: every amplitude SAMPLE writes is finite, of magnitude at most |VOL_L| for SINE and SQUARE, and so in [-1, 1]
whenever VOL_L is. -/
def Obligations.AmplitudesAreFiniteAndBounded : Prop :=
  ∀ s t : State, s.Inv → s.status.err = false → exec .sample s = .next t → t.status.err = false →
    isFinite (F64.ofBits t.amp) = true ∧
    (s.voice.kind = .silence → t.amp = PZERO) ∧
    (s.voice.kind = .noise → t.amp = ONE ∨ t.amp = MINUS_ONE) ∧
    (s.voice.kind = .sine → |(F64.ofBits t.amp).toRat| ≤ |(F64.ofBits s.volL).toRat|) ∧
    (s.voice.kind = .square → t.amp = s.volL ∨ t.amp = neg64 s.volL) ∧
    (|(F64.ofBits s.volL).toRat| ≤ 1 → |(F64.ofBits t.amp).toRat| ≤ 1)

/-- R14: the assumed properties of SIN64: signed zeros are kept, and every finite argument gives a finite value in
[-1.0, 1.0]. It holds for every choice of the free value (log entry 6). -/
def Obligations.SineIsWithinTheUnitInterval : Prop :=
  sin64 (F64.ofBits PZERO) = F64.ofBits PZERO ∧ sin64 (F64.ofBits NZERO) = F64.ofBits NZERO ∧
  ∀ x : Word, isFinite (F64.ofBits x) = true →
    isFinite (sin64 (F64.ofBits x)) = true ∧ le64 f64MinusOne (sin64 (F64.ofBits x)) = true ∧
    le64 (sin64 (F64.ofBits x)) f64One = true

/-- R95, R121, R122, the corner cases of a SINE voice. At a zero time, or at a zero frequency where the first product is
finite, the amplitude is the zero whose sign is the exclusive-or of the signs of TIME, FREQ_L and VOL_L; at a zero
frequency where it is not finite SAMPLE raises ARG_OVERFLOW; with a zero volume every amplitude is a zero. Where R122's or
R95's words differ from the formula of R121, on signed zeros or on an overflowing time, the model follows R121 (log entry
15); the sign of a zero product is IEEE 754's (log entry 10). -/
def Obligations.SineCornerCases : Prop :=
  ∀ s : State, s.Inv → s.status.err = false → s.voice.kind = .sine →
    let first := mul64 (F64.ofBits s.time) f64TwoPi
    let signedZero : Word :=
      if s.time.getLsbD 63 ^^ s.freqL.getLsbD 63 ^^ s.volL.getLsbD 63 then NZERO else PZERO
    (isZeroWord s.time = true →
      exec .sample s = .next { s with amp := signedZero, status := { s.status with edge := false } }) ∧
    (isZeroWord s.freqL = true → timeOK (F64.ofBits s.time) = true → isFinite first = true →
      exec .sample s = .next { s with amp := signedZero, status := { s.status with edge := false } }) ∧
    (isZeroWord s.freqL = true → timeOK (F64.ofBits s.time) = true → isFinite first = false →
      exec .sample s = .next (s.withErrorCode 6)) ∧
    (isZeroWord s.volL = true → ∀ t, exec .sample s = .next t → t.status.err = false → isZeroWord t.amp = true)

/-! ### The shift register (43_noise.md) -/

/-- R163: Advance as the rule computes it, and bit by bit: the feedback of bit 0 and the tap lands in bit 13, bit 14 is 0,
and every other bit is its left neighbour. -/
def Obligations.AdvanceInsertsThenShifts : Prop :=
  ∀ (b : Lfsr) (m : Mode),
    let tap := if m = .short then 6 else 1
    let fb := b.getLsbD 0 ^^ b.getLsbD tap
    (advance b m).toNat = ((b.toNat &&& 0x3FFF) ||| (fb.toNat <<< 14)) >>> 1 ∧
    (advance b m).getLsbD 14 = false ∧ (advance b m).getLsbD 13 = fb ∧
    ∀ i, i < 13 → (advance b m).getLsbD i = b.getLsbD (i + 1)

/-- R166, R167: on values with bit 14 clear Advance is a bijection, with the inverse the rule gives; zero and only zero
goes to zero; the register starts at the seed with bit 14 clear and not zero, and every step of every render keeps it so;
the seed 0x4000 would go to zero. -/
def Obligations.RegisterNeverBecomesZero : Prop :=
  (∀ m : Mode,
    (∀ r : Lfsr, r.getLsbD 14 = false →
      ∃ b : Lfsr, b.getLsbD 14 = false ∧ advance b m = r ∧
        (∀ i, i < 13 → b.getLsbD (i + 1) = r.getLsbD i) ∧
        b.getLsbD 0 = (r.getLsbD 13 ^^ r.getLsbD (if m = .short then 5 else 0)) ∧
        ∀ b' : Lfsr, b'.getLsbD 14 = false → advance b' m = r → b' = b) ∧
    advance 0 m = 0 ∧
    (∀ b : Lfsr, (advance b m).getLsbD 14 = false ∧ (b.getLsbD 14 = false → b ≠ 0 → advance b m ≠ 0)) ∧
    advance 0x4000 m = 0x0000) ∧
  State.reset.lfsr = 0x0001 ∧
  ∀ s t : State, s.lfsr.getLsbD 14 = false → s.lfsr ≠ 0 → step s = .next t →
    t.lfsr.getLsbD 14 = false ∧ t.lfsr ≠ 0

/-- R168: from 0x0001 the register first returns after 11811 advances in long mode and 254 in short mode; these are also
the periods of the output bits; over one period the output is +1 for 5906 and 64 of the advances. -/
def Obligations.ShiftRegisterPeriods : Prop :=
  let state := fun (m : Mode) (n : Nat) => (fun b => advance b m)^[n] (0x0001 : Lfsr)
  let out := fun (m : Mode) (n : Nat) => (state m n).getLsbD 0
  ∀ m : Mode,
    let period := if m = .short then 254 else 11811
    state m period = 0x0001 ∧ (∀ n, 0 < n → n < period → state m n ≠ 0x0001) ∧
    (∀ n, out m (n + period) = out m n) ∧ (∀ p, 0 < p → p < period → ∃ n, out m (n + p) ≠ out m n) ∧
    ((List.range period).countP fun n => out m (n + 1)) = if m = .short then 64 else 5906

/-- R169, in every state a render can be in: a noise sample advances the register exactly when its phase is below the
PHASE the previous noise sample left, and repeating it at the same time advances nothing and gives the same amplitude. -/
def Obligations.NoiseAdvancesExactlyOnAPhaseWrap : Prop :=
  ∀ s t : State, s.Inv → s.voice.kind = .noise → s.status.err = false →
    exec .sample s = .next t → t.status.err = false →
      (t.lfsr ≠ s.lfsr ↔
        lt64 (fmod64 (F64.ofBits s.time) (halfPeriod (F64.ofBits s.freqL))) (F64.ofBits s.phase) = true) ∧
      t.status.edge = decide (t.lfsr ≠ s.lfsr) ∧
      exec .sample t = .next { t with status := { t.status with edge := false } }

/-- R172: the first noise sample after a successful INIT never advances, at whatever accepted time, and is +1.0. -/
def Obligations.FirstNoiseSampleNeverAdvances : Prop :=
  ∀ (m : Mode) (s t : State) (x : Word), exec (initCommand .noise m) s = .next t → t.status.err = false →
    timeOK (F64.ofBits x) = true →
      ∃ u, exec .sample { t with time := x } = .next u ∧ u.status.err = false ∧ u.status.edge = false ∧
        u.lfsr = 0x0001 ∧ u.amp = ONE

/-- R160, R164: a noise voice does not read VOL_L: another VOL_L changes nothing that SAMPLE or SAMPLEQ does. -/
def Obligations.NoiseIgnoresItsVolume : Prop :=
  ∀ (s t : State) (v : Word) (i : Instr), i = .sample ∨ i = .sampleq → s.voice.kind = .noise →
    exec i s = .next t → exec i { s with volL := v } = .next { t with volL := v }

/-! ### QUANT and SAMPLEQ (44_quantizer.md) -/

/-- R190, R191: QUANT writes the clamped floor of AIN × 127 × MVOL + 127 and sets the warnings; MVOL not finite gives
code 7, a NaN value code 8, and nothing else is then written. -/
def Obligations.QuantWritesTheClampedFloor : Prop :=
  ∀ s : State, s.status.err = false →
    let a := F64.ofBits s.ain
    let mv := F64.ofBits s.mvol
    let y := add64 (mul64 (mul64 a f64Num127) mv) f64Num127
    (isFinite mv = false → exec .quant s = .next (s.withErrorCode 7)) ∧
    (isFinite mv = true → isNaN y = true → exec .quant s = .next (s.withErrorCode 8)) ∧
    (isFinite mv = true → isNaN y = false →
      ∃ n, floorZ y = some n ∧
        exec .quant s =
          .next { s with
            pcm := BitVec.ofInt 8 (clampZ n 0 255),
            status := { s.status with
              awarn := s.status.awarn || (lt64 a f64MinusOne || gt64 a f64One),
              cwarn := s.status.cwarn || (n.below 0 || n.above 255) } })

/-- R190: the value before the floor is a NaN exactly when the amplitude is one, or when an infinite first product meets
a zero master volume. -/
def Obligations.QuantValueIsNaNExactlyWhen : Prop :=
  ∀ a mv : Word, isFinite (F64.ofBits mv) = true →
    (isNaN (add64 (mul64 (mul64 (F64.ofBits a) f64Num127) (F64.ofBits mv)) f64Num127) = true ↔
      isNaN (F64.ofBits a) = true ∨
      (isFinite (mul64 (F64.ofBits a) f64Num127) = false ∧ isZeroWord mv = true))

/-- R195: after the clamp, flooring and truncating give the same byte for every value that is not a NaN, and they differ
before it only where the clamp makes both 0. -/
def Obligations.FloorAndTruncationGiveTheSameByte : Prop :=
  ∀ (y : F64) (n k : ExtInt), floorZ y = some n → truncZ y = some k →
    clampZ n 0 255 = clampZ k 0 255 ∧
    (n ≠ k → lt64 y f64Zero = true ∧ clampZ n 0 255 = 0 ∧ clampZ k 0 255 = 0)

/-- R196: an amplitude in [-1.0, 1.0] and a master volume in [0.0, 1.0] give a value in [0.0, 254.0], the byte of its
floor, in [0, 254], and no CWARN. -/
def Obligations.InContractInputsStayInRange : Prop :=
  ∀ s : State, s.status.err = false →
    le64 f64MinusOne (F64.ofBits s.ain) = true → le64 (F64.ofBits s.ain) f64One = true →
    le64 f64Zero (F64.ofBits s.mvol) = true → le64 (F64.ofBits s.mvol) f64One = true →
      let y := add64 (mul64 (mul64 (F64.ofBits s.ain) f64Num127) (F64.ofBits s.mvol)) f64Num127
      le64 f64Zero y = true ∧ le64 y (F64.ofBits 0x406FC00000000000) = true ∧
      ∃ q : Nat, floorZ y = some (.int q) ∧ q ≤ 254 ∧
        exec .quant s = .next { s with pcm := BitVec.ofNat 8 q }

/-- R197: a zero amplitude with any finite master volume is the byte 127: from AIN, and rendered by a SILENCE voice or by
a SINE or SQUARE voice with a zero volume. -/
def Obligations.ZeroAmplitudeIsTheMidpoint : Prop :=
  ∀ s : State, s.status.err = false → isFinite (F64.ofBits s.mvol) = true →
    (isZeroWord s.ain = true → exec .quant s = .next { s with pcm := 127 }) ∧
    (s.Inv → timeOK (F64.ofBits s.time) = true →
      (s.voice.kind = .silence ∨ (s.voice.kind = .square ∧ isZeroWord s.volL = true) ∨
        (s.voice.kind = .sine ∧ isZeroWord s.volL = true ∧
          isFinite (mul64 (mul64 (F64.ofBits s.time) f64TwoPi) (F64.ofBits s.freqL)) = true)) →
      ∃ t, exec .sampleq s = .next t ∧ t.status.err = false ∧ isZeroWord t.amp = true ∧ t.pcm = 127 ∧
        t.status.awarn = s.status.awarn ∧ t.status.cwarn = s.status.cwarn)

/-- R193, as bits: the amplitude warning is due exactly when the amplitude, not a NaN, is beyond ±1.0; ±inf is. -/
def Obligations.AmplitudeWarningExactlyBeyondOne : Prop :=
  ∀ x : Word,
    (lt64 (F64.ofBits x) f64MinusOne || gt64 (F64.ofBits x) f64One) = true ↔
      0x3FF0000000000000 < x.toNat % 2 ^ 63 ∧ x.toNat % 2 ^ 63 ≤ 0x7FF0000000000000

/-- The frame of QUANT (R191): PCM, AWARN and CWARN, or on an error ERR and ERRCODE alone. -/
def Obligations.QuantFrame : Prop :=
  ∀ s t : State, exec .quant s = .next t →
    t.freq = s.freq ∧ t.vol = s.vol ∧ t.time = s.time ∧ t.mvol = s.mvol ∧ t.ain = s.ain ∧ t.amp = s.amp ∧
    t.voice = s.voice ∧ t.lfsr = s.lfsr ∧ t.phase = s.phase ∧ t.freqL = s.freqL ∧ t.volL = s.volL ∧
    t.pending = s.pending ∧ t.hostReads = s.hostReads ∧ t.status.edge = s.status.edge ∧
    (s.status.awarn = true → t.status.awarn = true) ∧ (s.status.cwarn = true → t.status.cwarn = true) ∧
    (t.status.err = true →
      t.pcm = s.pcm ∧ t.status.awarn = s.status.awarn ∧ t.status.cwarn = s.status.cwarn) ∧
    (t.status.err = false → t.status.errCode = s.status.errCode ∧ s.status.err = false)

/-- R192: where SAMPLE completes, and MVOL is finite, and the value is no NaN, SAMPLEQ completes with SAMPLE's writes and
the byte and warnings of the new amplitude. -/
def Obligations.SampleqCompletesBothHalves : Prop :=
  ∀ s : State, s.status.err = false → timeOK (F64.ofBits s.time) = true →
    (s.voice.kind = .sine →
      isFinite (mul64 (mul64 (F64.ofBits s.time) f64TwoPi) (F64.ofBits s.freqL)) = true) →
    isFinite (F64.ofBits s.mvol) = true →
    ∃ t, exec .sample s = .next t ∧ t.status.err = false ∧
      let a := F64.ofBits t.amp
      let y := add64 (mul64 (mul64 a f64Num127) (F64.ofBits s.mvol)) f64Num127
      (isNaN y = false →
        ∃ n, floorZ y = some n ∧
          exec .sampleq s =
            .next { t with
              pcm := BitVec.ofInt 8 (clampZ n 0 255),
              status := { t.status with
                awarn := t.status.awarn || (lt64 a f64MinusOne || gt64 a f64One),
                cwarn := t.status.cwarn || (n.below 0 || n.above 255) } })

/-- R192: when nothing fails, the state after SAMPLEQ is the state after SAMPLE, `wr AIN, AMP`, QUANT, but for AIN. -/
def Obligations.SampleqEqualsSampleThenQuant : Prop :=
  ∀ s t : State, s.status.err = false → exec .sampleq s = .next t → t.status.err = false →
    runHost [cmd .sample, wr .ain t.amp, cmd .quant] s = .next { t with ain := t.amp, pending := [] }

/-- The frame of SAMPLEQ (R192, R225): SAMPLE's registers, PCM and the warnings; on an error ERR and ERRCODE alone, so
the noise register does not advance when the quantizer fails. -/
def Obligations.SampleqFrame : Prop :=
  ∀ s t : State, exec .sampleq s = .next t →
    t.freq = s.freq ∧ t.vol = s.vol ∧ t.time = s.time ∧ t.mvol = s.mvol ∧ t.ain = s.ain ∧
    t.voice = s.voice ∧ t.freqL = s.freqL ∧ t.volL = s.volL ∧ t.pending = s.pending ∧ t.hostReads = s.hostReads ∧
    (s.status.awarn = true → t.status.awarn = true) ∧ (s.status.cwarn = true → t.status.cwarn = true) ∧
    (s.voice.kind ≠ .noise → t.lfsr = s.lfsr ∧ t.phase = s.phase) ∧
    (t.status.err = true →
      t.amp = s.amp ∧ t.pcm = s.pcm ∧ t.lfsr = s.lfsr ∧ t.phase = s.phase ∧ t.status.edge = s.status.edge ∧
      t.status.awarn = s.status.awarn ∧ t.status.cwarn = s.status.cwarn) ∧
    (t.status.err = false → t.status.errCode = s.status.errCode ∧ s.status.err = false)

/-! ### Errors and warnings (60_exceptions.md) -/

/-- R223: the error recorded is the first failing check in the rule's order, the gate of R91 and the decoding before all
of them. -/
def Obligations.FirstFailingCheckIsRecorded : Prop :=
  ∀ s : State,
    let t := F64.ofBits s.time
    let argOK := isFinite (mul64 (mul64 t f64TwoPi) (F64.ofBits s.freqL))
    let mv := F64.ofBits s.mvol
    let y := fun a : F64 => add64 (mul64 (mul64 a f64Num127) mv) f64Num127
    (∀ w : Word, (∀ i, w ≠ encode i) → s.status.err = false → executeCommand w s = .next (s.withErrorCode 1)) ∧
    (∀ i, s.status.err = true → i = .sample ∨ i = .quant ∨ i = .sampleq → exec i s = .next s) ∧
    (∀ k m, (k ≠ .noise → m = .long) → freqOK k (F64.ofBits s.freq) = false →
      ∃ u, exec (initCommand k m) s = .next u ∧ u.status.err = true ∧ u.status.errCode = 3) ∧
    (∀ k m, (k ≠ .noise → m = .long) → freqOK k (F64.ofBits s.freq) = true → volOK k (F64.ofBits s.vol) = false →
      ∃ u, exec (initCommand k m) s = .next u ∧ u.status.err = true ∧ u.status.errCode = 4) ∧
    (s.status.err = false →
      (timeOK t = false → exec .sample s = .next (s.withErrorCode 5) ∧ exec .sampleq s = .next (s.withErrorCode 5)) ∧
      (timeOK t = true → s.voice.kind = .sine → argOK = false →
        exec .sample s = .next (s.withErrorCode 6) ∧ exec .sampleq s = .next (s.withErrorCode 6)) ∧
      (isFinite mv = false → exec .quant s = .next (s.withErrorCode 7)) ∧
      (isFinite mv = true → isNaN (y (F64.ofBits s.ain)) = true → exec .quant s = .next (s.withErrorCode 8)) ∧
      (timeOK t = true → (s.voice.kind = .sine → argOK = true) → isFinite mv = false →
        exec .sampleq s = .next (s.withErrorCode 7)) ∧
      (timeOK t = true → (s.voice.kind = .sine → argOK = true) → isFinite mv = true →
        ∀ u, exec .sample s = .next u → isNaN (y (F64.ofBits u.amp)) = true →
          exec .sampleq s = .next (s.withErrorCode 8)))

/-- R225: a command that leaves an error changes STATUS alone, and unless it is INIT it changes only ERR and ERRCODE
there; so a failing SAMPLE or SAMPLEQ never advances the LFSR and never changes PHASE. -/
def Obligations.FailingCommandsWriteOnlyStatus : Prop :=
  ∀ (i : Instr) (s t : State), exec i s = .next t → t.status.err = true →
    t = { s with status := t.status } ∧
    (isInit i = false →
      t.status = (if s.status.err then s.status else { s.status with err := true, errCode := t.status.errCode }))

/-- R91: while ERR = 1 the sampling and quantizing commands, NOP and illegal words change nothing, and a successful INIT
is the way out. -/
def Obligations.ErrorBlocksAllButInit : Prop :=
  ∀ s : State, s.status.err = true →
    exec .sample s = .next s ∧ exec .quant s = .next s ∧ exec .sampleq s = .next s ∧ exec .nop s = .next s ∧
    (∀ w : Word, (∀ i, w ≠ encode i) → executeCommand w s = .next s) ∧
    (∀ k m, (k ≠ .noise → m = .long) → freqOK k (F64.ofBits s.freq) = true → volOK k (F64.ofBits s.vol) = true →
      ∃ t, exec (initCommand k m) s = .next t ∧ t.status.err = false ∧ t.voice = { kind := k, mode := m })

/-- R31, R227, R228: whatever the host sends, until an INIT command or reset the first error of the render stays in STATUS
and nothing the voice or the results hold changes. -/
def Obligations.FirstErrorStaysUntilInitOrReset : Prop :=
  ∀ (ts : List Transaction) (s : State), s.status.err = true → (∀ tr ∈ ts, startsAfresh tr = false) →
    ∃ u, runHost ts s = .next u ∧ u.status = s.status ∧ u.amp = s.amp ∧ u.pcm = s.pcm ∧ u.voice = s.voice ∧
      u.lfsr = s.lfsr ∧ u.phase = s.phase ∧ u.freqL = s.freqL ∧ u.volL = s.volL

/-- R32, R230: a warning once set is still set after any transactions but an INIT command or reset; and a transaction
that sets one sets no error. -/
def Obligations.WarningsStayUntilInitOrReset : Prop :=
  (∀ (ts : List Transaction) (s : State), (∀ tr ∈ ts, startsAfresh tr = false) →
    ∃ u, runHost ts s = .next u ∧ (s.status.awarn = true → u.status.awarn = true) ∧
      (s.status.cwarn = true → u.status.cwarn = true)) ∧
  (∀ s t : State, step s = .next t →
    (s.status.awarn = false ∧ t.status.awarn = true) ∨ (s.status.cwarn = false ∧ t.status.cwarn = true) →
      t.status.err = false)

/-! ### Whole-machine rules -/

/-- R33, R34: LFSR and PHASE change only by reset, by an INIT command, which sets 0x0001 and +0.0, or by a SAMPLE or
SAMPLEQ on a NOISE voice with no error, which moves the LFSR by at most one advance. -/
def Obligations.OnlyInitNoiseAndResetWriteTheNoiseState : Prop :=
  ∀ s t : State, step s = .next t → t.lfsr ≠ s.lfsr ∨ t.phase ≠ s.phase →
    ∃ tr rest, s.pending = tr :: rest ∧
      ((startsAfresh tr = true ∧ t.lfsr = 0x0001 ∧ t.phase = PZERO) ∨
       ((tr = cmd .sample ∨ tr = cmd .sampleq) ∧ s.voice.kind = .noise ∧ s.status.err = false ∧
         (t.lfsr = s.lfsr ∨ t.lfsr = advance s.lfsr s.voice.mode)))

/-- R35, R36, R37, R93: VOICE, FREQ_L and VOL_L change only by reset or by a successful INIT command, which latches FREQ
and VOL. -/
def Obligations.OnlyInitAndResetWriteTheVoice : Prop :=
  ∀ s t : State, step s = .next t → t.voice ≠ s.voice ∨ t.freqL ≠ s.freqL ∨ t.volL ≠ s.volL →
    ∃ tr rest, s.pending = tr :: rest ∧
      (tr = .reset ∨
       (isInitWrite tr = true ∧ t.status.err = false ∧ t.freqL = s.freq ∧ t.volL = s.vol))

/-- R256: FREQ and VOL are read by INIT alone. Two runs of the same transactions, none of them INIT or a read of FREQ or
VOL, from states that differ in FREQ and VOL alone, end in states that differ in FREQ and VOL alone. -/
def Obligations.FreqAndVolReachOnlyInit : Prop :=
  ∀ (ts : List Transaction) (s : State) (f v : Word),
    (∀ tr ∈ ts, isInitWrite tr = false ∧ readsFreqOrVol tr = false) →
      ∃ u f' v', runHost ts s = .next u ∧
        runHost ts { s with freq := f, vol := v } = .next { u with freq := f', vol := v' }

/-- The invariant of every render (R31, R35, R99, R100, R103, R161, R166, R167, R222) is kept by every step. -/
def Obligations.EveryStepKeepsTheInvariant : Prop :=
  ∀ s t : State, s.Inv → step s = .next t → t.Inv

/-- The invariant holds after reset (R250). -/
def Obligations.ResetMeetsTheInvariant : Prop := State.reset.Inv

/-! ### Numeric primitives (00_scope.md) -/

/-- R10: add64, mul64 and div64 each round the exact result once, roundTiesToEven, on all finite operands. That a result
beyond the overflow bound is an infinity of the exact sign is IEEE 754's, presumed (log entry 10). -/
def Obligations.PrimitivesRoundOnce : Prop :=
  ∀ x y : Word, isFinite (F64.ofBits x) = true → isFinite (F64.ofBits y) = true →
    RoundedOnce ((F64.ofBits x).toRat + (F64.ofBits y).toRat) (add64 (F64.ofBits x) (F64.ofBits y)) ∧
    RoundedOnce ((F64.ofBits x).toRat * (F64.ofBits y).toRat) (mul64 (F64.ofBits x) (F64.ofBits y)) ∧
    ((F64.ofBits y).toRat ≠ 0 →
      RoundedOnce ((F64.ofBits x).toRat / (F64.ofBits y).toRat) (div64 (F64.ofBits x) (F64.ofBits y)))

/-- R9: a register's 64 bits and the value they denote determine each other. -/
def Obligations.BitsAndValuesDetermineEachOther : Prop :=
  ∀ x y : Word, (F64.ofBits x).toBits = x ∧ (F64.ofBits x = F64.ofBits y → x = y)

/-- R10: fmod64 is the exact remainder x - y × trunc(x / y), of the sign of x, of magnitude below |y|, and representable,
so that writing it to PHASE loses nothing. -/
def Obligations.RemainderIsExact : Prop :=
  ∀ x y : Word, isFinite (F64.ofBits x) = true → isFinite (F64.ofBits y) = true → (F64.ofBits y).toRat ≠ 0 →
    let r := fmod64 (F64.ofBits x) (F64.ofBits y)
    (∃ s m m', F64.ofBits x = .fin s m ∧ r = .fin s m') ∧
    (∃ q : Int, r.toRat = (F64.ofBits x).toRat - (F64.ofBits y).toRat * q) ∧
    |r.toRat| < |(F64.ofBits y).toRat| ∧ 0 ≤ r.toRat * (F64.ofBits x).toRat ∧
    F64.ofBits r.toBits = r

/-- R10, R13: floorZ gives the greatest integer not above a finite value, and clampZ brings it into the range. -/
def Obligations.FloorAndClampAreExact : Prop :=
  (∀ x : Word, isFinite (F64.ofBits x) = true →
    ∃ n : Int, floorZ (F64.ofBits x) = some (.int n) ∧ (n : ℚ) ≤ (F64.ofBits x).toRat ∧
      (F64.ofBits x).toRat < n + 1) ∧
  (∀ (n : ExtInt) (lo hi : Int), lo ≤ hi →
    lo ≤ clampZ n lo hi ∧ clampZ n lo hi ≤ hi ∧
    (n.below lo = true → clampZ n lo hi = lo) ∧ (n.above hi = true → clampZ n lo hi = hi) ∧
    (∀ k, n = .int k → lo ≤ k → k ≤ hi → clampZ n lo hi = k))

/-- R10: the ordered comparisons agree with the rational values of finite operands, so the two zeros compare equal. -/
def Obligations.ComparisonsFollowTheValues : Prop :=
  ∀ x y : Word, isFinite (F64.ofBits x) = true → isFinite (F64.ofBits y) = true →
    (lt64 (F64.ofBits x) (F64.ofBits y) = true ↔ (F64.ofBits x).toRat < (F64.ofBits y).toRat) ∧
    (le64 (F64.ofBits x) (F64.ofBits y) = true ↔ (F64.ofBits x).toRat ≤ (F64.ofBits y).toRat) ∧
    (gt64 (F64.ofBits x) (F64.ofBits y) = true ↔ (F64.ofBits y).toRat < (F64.ofBits x).toRat)

/-! ### The host's procedure (44_quantizer.md) -/

/-- R207: the sample count is the floor of the rounded product; 44100.0 samples a second for 0.5 seconds are 22050. -/
def Obligations.SampleCountIsTheFloor : Prop :=
  sampleCount 0x40E5888000000000 0x3FE0000000000000 = some 22050 ∧
  ∀ sr len : Word, isFinite (mul64 (F64.ofBits sr) (F64.ofBits len)) = true →
    0 ≤ (mul64 (F64.ofBits sr) (F64.ofBits len)).toRat →
      ∃ n : Nat, sampleCount sr len = some n ∧ (n : ℚ) ≤ (mul64 (F64.ofBits sr) (F64.ofBits len)).toRat ∧
        (mul64 (F64.ofBits sr) (F64.ofBits len)).toRat < n + 1
end

