-- ==== Sys2Proof/Laws/Decode.lean ====
section
/-! SUPPORT. What the decoder answers, one lemma per legal word and one for every other word. -/

namespace Sys2Proof

@[simp] theorem OpcodeRow.matchesWord_allOnes (v w : Word) (i : Instr) :
    OpcodeRow.matchesWord ⟨0xFFFFFFFFFFFFFFFF, v, i⟩ w = (w == v) := by
  have h : w &&& 0xFFFFFFFFFFFFFFFF = w := BitVec.and_allOnes
  simp only [OpcodeRow.matchesWord, h]

theorem encode_nop : encode .nop = 0x0 := rfl
theorem encode_initSil : encode .initSil = 0x1 := rfl
theorem encode_initSine : encode .initSine = 0x11 := rfl
theorem encode_initSqr : encode .initSqr = 0x21 := rfl
theorem encode_initNoise : encode .initNoise = 0x31 := rfl
theorem encode_initNoiseS : encode .initNoiseS = 0x71 := rfl
theorem encode_sample : encode .sample = 0x2 := rfl
theorem encode_quant : encode .quant = 0x3 := rfl
theorem encode_sampleq : encode .sampleq = 0x4 := rfl

/-- A word the decoder accepts stands in the table with that command (R72). -/
theorem decode_ok_mem {w : Word} {i : Instr} (h : decode w = .ok i) :
    ∃ r ∈ opcodeTable, r.matchesWord w = true ∧ r.instr = i := by
  unfold decode at h
  split at h
  · rename_i r hr
    cases h
    exact ⟨r, List.mem_of_find?_eq_some hr, by simpa using List.find?_some hr, rfl⟩
  · cases h

/-- A word the decoder rejects matches no row (R72). -/
theorem decode_error_forall {w : Word} {e : DecodeReject} (h : decode w = .error e) :
    ∀ r ∈ opcodeTable, r.matchesWord w = false := by
  unfold decode at h
  split at h
  · cases h
  · rename_i hr
    intro r hm
    simpa using List.find?_eq_none.1 hr r hm

end Sys2Proof
end

