-- ==== Sys2Proof/Laws/Rounding.lean ====
section
/-! SUPPORT. The rounding core: the grid of binary64 magnitudes, and that `roundCode` is nearest, ties to even, monotone, and
exact on the grid. -/

namespace Sys2Proof.Machine

/-! ### The grid of magnitudes -/

/-- A significand m in its place k is the code m + k × 2^52. -/
theorem magOfCode_pack {m k : Nat} (hlo : k = 0 ∨ 2 ^ 52 ≤ m) (hhi : m ≤ 2 ^ 53) :
    magOfCode (m + k * 2 ^ 52) = m * 2 ^ k := by
  unfold magOfCode
  by_cases h1 : m < 2 ^ 52
  · have hk : k = 0 := by omega
    subst hk
    rw [if_pos (by omega)]
    simp only [Nat.zero_mul, Nat.add_zero, Nat.pow_zero, Nat.mul_one]
    omega
  · by_cases h2 : m = 2 ^ 53
    · have hd : (m + k * 2 ^ 52) / 2 ^ 52 = k + 2 := by omega
      have hm : (m + k * 2 ^ 52) % 2 ^ 52 = 0 := by omega
      rw [hd, hm, if_neg (by omega), h2]
      have : k + 2 - 1 = k + 1 := by omega
      rw [this, Nat.pow_succ 2 k]
      ring
    · have hd : (m + k * 2 ^ 52) / 2 ^ 52 = k + 1 := by omega
      have hm : (m + k * 2 ^ 52) % 2 ^ 52 = m - 2 ^ 52 := by omega
      rw [hd, hm, if_neg (by omega)]
      have h3 : 2 ^ 52 + (m - 2 ^ 52) = m := by omega
      rw [h3, Nat.add_sub_cancel]

/-- Every code is a significand in its place. -/
theorem code_unpack (c : Nat) :
    ∃ m k, c = m + k * 2 ^ 52 ∧ (k = 0 ∨ 2 ^ 52 ≤ m) ∧ m < 2 ^ 53 ∧ k = c / 2 ^ 52 - 1 :=
  ⟨c - (c / 2 ^ 52 - 1) * 2 ^ 52, c / 2 ^ 52 - 1, by omega, by omega, by omega, rfl⟩

/-- The step of the grid above a code. -/
theorem magOfCode_succ (c : Nat) : magOfCode (c + 1) = magOfCode c + 2 ^ (c / 2 ^ 52 - 1) := by
  obtain ⟨m, k, hc, hlo, hhi, hk⟩ := code_unpack c
  rw [← hk]
  have h1 : c + 1 = (m + 1) + k * 2 ^ 52 := by omega
  rw [h1, hc, magOfCode_pack (by omega) (by omega), magOfCode_pack hlo (by omega)]
  ring

theorem magOfCode_strictMono : StrictMono magOfCode :=
  strictMono_nat_of_lt_succ fun c => by
    rw [magOfCode_succ]
    exact Nat.lt_add_of_pos_right (Nat.two_pow_pos _)

theorem magOfCode_injective : Function.Injective magOfCode := magOfCode_strictMono.injective

@[simp] theorem magOfCode_zero : magOfCode 0 = 0 := by simp [magOfCode]

/-! ### The nearest integer -/

/-- A remainder fact: n = d × (n / d) + n % d, as the tactics below want it. -/
theorem nearestEven_bound {n d : Nat} (hd : 0 < d) :
    2 * n ≤ 2 * (d * nearestEven n d) + d ∧ 2 * (d * nearestEven n d) ≤ 2 * n + d := by
  have hn := Nat.div_add_mod n d
  have hr := Nat.mod_lt n hd
  unfold nearestEven
  split
  · constructor <;> omega
  · split
    · rw [Nat.mul_add, Nat.mul_one]; constructor <;> omega
    · rcases Nat.mod_two_eq_zero_or_one (n / d) with h | h <;> rw [h, Nat.mul_add] <;> constructor <;> omega

theorem nearestEven_tie {n d : Nat} (hd : 0 < d)
    (h : 2 * n = 2 * (d * nearestEven n d) + d ∨ 2 * (d * nearestEven n d) = 2 * n + d) :
    nearestEven n d % 2 = 0 := by
  have hn := Nat.div_add_mod n d
  have hr := Nat.mod_lt n hd
  revert h
  unfold nearestEven
  split
  · intro h; omega
  · split
    · rw [Nat.mul_add, Nat.mul_one]; intro h; omega
    · intro _; omega

theorem nearestEven_ge {n d a : Nat} (hd : 0 < d) (h : d * a ≤ n) : a ≤ nearestEven n d := by
  have h1 : a ≤ n / d := (Nat.le_div_iff_mul_le hd).2 (by rw [Nat.mul_comm]; exact h)
  have h2 : n / d ≤ nearestEven n d := by unfold nearestEven; split <;> [skip; split] <;> omega
  exact h1.trans h2

theorem nearestEven_le {n d a : Nat} (hd : 0 < d) (h : n < d * a) : nearestEven n d ≤ a := by
  have h1 : n / d < a := (Nat.div_lt_iff_lt_mul hd).2 (by rw [Nat.mul_comm]; exact h)
  have h2 : nearestEven n d ≤ n / d + 1 := by unfold nearestEven; split <;> [skip; split] <;> omega
  omega

/-! ### The rounded code -/

/-- What the place of a quotient is: either no shift and less than 2^53, or 53 significant bits. -/
theorem placeShift_spec (q : Nat) :
    (placeShift q = 0 ∧ q < 2 ^ 53) ∨ (2 ^ (52 + placeShift q) ≤ q ∧ q < 2 ^ (53 + placeShift q)) := by
  unfold placeShift
  by_cases hq : q = 0
  · left; subst hq; decide
  have h1 := Nat.log2_self_le hq
  have h2 : q < 2 ^ (q.log2 + 1) := Nat.lt_log2_self
  by_cases h : q.log2 ≤ 52
  · left
    refine ⟨by omega, h2.trans_le (Nat.pow_le_pow_right (by decide) (by omega))⟩
  · right
    have e1 : 52 + (q.log2 - 52) = q.log2 := by omega
    have e2 : 53 + (q.log2 - 52) = q.log2 + 1 := by omega
    rw [e1, e2]
    exact ⟨h1, h2⟩

/-- The rounded code as a significand in its place, with everything rounding says about it. -/
theorem roundCode_spec {n d : Nat} (hd : 0 < d) :
    ∃ m k, roundCode n d = m + k * 2 ^ 52 ∧ (k = 0 ∨ 2 ^ 52 ≤ m) ∧ m ≤ 2 ^ 53 ∧
      2 * n ≤ 2 * (d * (m * 2 ^ k)) + d * 2 ^ k ∧
      2 * (d * (m * 2 ^ k)) ≤ 2 * n + d * 2 ^ k ∧
      ((2 * n = 2 * (d * (m * 2 ^ k)) + d * 2 ^ k ∨ 2 * (d * (m * 2 ^ k)) = 2 * n + d * 2 ^ k) → m % 2 = 0) ∧
      (k ≠ 0 → d * (2 ^ 52 * 2 ^ k) ≤ n) := by
  set k := placeShift (n / d) with hk
  have hD : 0 < d * 2 ^ k := Nat.mul_pos hd (Nat.two_pow_pos _)
  have comm : ∀ m, d * 2 ^ k * m = d * (m * 2 ^ k) := fun m => by ring
  have hb := nearestEven_bound (n := n) hD
  have ht := nearestEven_tie (n := n) hD
  rw [comm] at hb ht
  refine ⟨nearestEven n (d * 2 ^ k), k, rfl, ?_, ?_, hb.1, hb.2, ht, ?_⟩
  · rcases placeShift_spec (n / d) with ⟨h, -⟩ | ⟨h, -⟩
    · exact .inl h
    · right
      refine nearestEven_ge hD ?_
      have := (Nat.le_div_iff_mul_le hd).1 h
      calc d * 2 ^ k * 2 ^ 52 = 2 ^ (52 + k) * d := by rw [Nat.pow_add]; ring
        _ ≤ n := this
  · refine nearestEven_le hD ?_
    rcases placeShift_spec (n / d) with ⟨h, h'⟩ | ⟨-, h'⟩
    · have := (Nat.div_lt_iff_lt_mul hd).1 h'
      rw [← hk] at h
      rw [h, Nat.pow_zero, Nat.mul_one, Nat.mul_comm]
      exact this
    · have := (Nat.div_lt_iff_lt_mul hd).1 h'
      calc n < 2 ^ (53 + k) * d := this
        _ = d * 2 ^ k * 2 ^ 53 := by rw [Nat.pow_add]; ring
  · intro hk0
    rcases placeShift_spec (n / d) with ⟨h, -⟩ | ⟨h, -⟩
    · exact absurd (hk.trans h) hk0
    · have := (Nat.le_div_iff_mul_le hd).1 h
      calc d * (2 ^ 52 * 2 ^ k) = 2 ^ (52 + k) * d := by rw [Nat.pow_add]; ring
        _ ≤ n := this

/-- Rounding up: no code above the rounded one is nearer, and a tie with one makes the rounded code even. -/
theorem roundCode_above {n d c : Nat} (hd : 0 < d) (hc : roundCode n d < c) :
    2 * n ≤ d * magOfCode (roundCode n d) + d * magOfCode c ∧
    (2 * n = d * magOfCode (roundCode n d) + d * magOfCode c → roundCode n d % 2 = 0) := by
  obtain ⟨m, k, hr, hlo, hhi, hup, hdn, htie, -⟩ := roundCode_spec (n := n) hd
  have hmag : magOfCode (roundCode n d) = m * 2 ^ k := by rw [hr, magOfCode_pack hlo hhi]
  have hnext : magOfCode (roundCode n d) + 2 ^ k ≤ magOfCode c := by
    refine le_trans ?_ (magOfCode_strictMono.monotone (Nat.succ_le_of_lt hc))
    rw [Nat.succ_eq_add_one, magOfCode_succ]
    exact Nat.add_le_add_left (Nat.pow_le_pow_right (by decide) (by omega)) _
  have hmul : d * magOfCode (roundCode n d) + d * 2 ^ k ≤ d * magOfCode c := by
    rw [← Nat.mul_add]; exact Nat.mul_le_mul_left d hnext
  rw [hmag] at hmul ⊢
  refine ⟨by omega, fun h => ?_⟩
  have := htie (.inl (by omega))
  rw [hr]; omega

/-- Rounding down: no code below the rounded one is nearer, and a tie with one makes the rounded code even. -/
theorem roundCode_below {n d c : Nat} (hd : 0 < d) (hc : c < roundCode n d) :
    d * magOfCode (roundCode n d) + d * magOfCode c ≤ 2 * n ∧
    (2 * n = d * magOfCode (roundCode n d) + d * magOfCode c → roundCode n d % 2 = 0) := by
  obtain ⟨m, k, hr, hlo, hhi, hup, hdn, htie, hbase⟩ := roundCode_spec (n := n) hd
  have hmag : magOfCode (roundCode n d) = m * 2 ^ k := by rw [hr, magOfCode_pack hlo hhi]
  have hlt : d * magOfCode c < d * magOfCode (roundCode n d) :=
    (Nat.mul_lt_mul_left hd).2 (magOfCode_strictMono hc)
  by_cases hedge : k ≠ 0 ∧ m = 2 ^ 52
  · have hb := hbase hedge.1
    rw [hmag, hedge.2] at hlt ⊢
    exact ⟨by omega, fun h => by rw [hr]; omega⟩
  · have hstep : magOfCode c + 2 ^ k ≤ magOfCode (roundCode n d) := by
      have hle : c ≤ roundCode n d - 1 := by omega
      have hs : roundCode n d - 1 + 1 = roundCode n d := by omega
      have := magOfCode_succ (roundCode n d - 1)
      rw [hs] at this
      rw [this]
      refine Nat.add_le_add (magOfCode_strictMono.monotone hle) (Nat.pow_le_pow_right (by decide) ?_)
      rw [hr]
      rcases Nat.eq_zero_or_pos k with h0 | h0
      · omega
      · have : 2 ^ 52 + 1 ≤ m := by omega
        omega
    have hmul : d * magOfCode c + d * 2 ^ k ≤ d * magOfCode (roundCode n d) := by
      rw [← Nat.mul_add]; exact Nat.mul_le_mul_left d hstep
    rw [hmag] at hmul ⊢
    refine ⟨by omega, fun h => ?_⟩
    have := htie (.inr (by omega))
    rw [hr]; omega

/-- A code whose magnitude is the quotient exactly is the rounded one. -/
theorem roundCode_eq_of_exact {n d c : Nat} (hd : 0 < d) (h : n = d * magOfCode c) : roundCode n d = c := by
  by_contra hne
  rcases Nat.lt_or_gt_of_ne hne with hlt | hgt
  · have h1 := (roundCode_above hd hlt).1
    have h2 := (Nat.mul_lt_mul_left hd).2 (magOfCode_strictMono hlt)
    omega
  · have h1 := (roundCode_below hd hgt).1
    have h2 := (Nat.mul_lt_mul_left hd).2 (magOfCode_strictMono hgt)
    omega

/-- Rounding leaves the grid alone (R10: one rounding, and none where the result is representable). -/
@[simp] theorem roundCode_magOfCode (c : Nat) : roundCode (magOfCode c) 1 = c :=
  roundCode_eq_of_exact Nat.one_pos (Nat.one_mul _).symm

@[simp] theorem roundCode_zero (d : Nat) : roundCode 0 d = 0 := by
  simp [roundCode, nearestEven, placeShift]

/-- Rounding to nearest is monotone (G6, G7). -/
theorem roundCode_mono {n d n' d' : Nat} (hd : 0 < d) (hd' : 0 < d') (h : n * d' ≤ n' * d) :
    roundCode n d ≤ roundCode n' d' := by
  by_contra hlt
  have hlt : roundCode n' d' < roundCode n d := by omega
  obtain ⟨a1, a2⟩ := roundCode_below (n := n) hd hlt
  obtain ⟨b1, b2⟩ := roundCode_above (n := n') hd' hlt
  set g := magOfCode (roundCode n d) with hg
  set g' := magOfCode (roundCode n' d') with hg'
  have e1 : d' * (d * g + d * g') ≤ d' * (2 * n) := Nat.mul_le_mul_left d' a1
  have e2 : d * (2 * n') ≤ d * (d' * g' + d' * g) := Nat.mul_le_mul_left d b1
  have e3 : d' * (d * g + d * g') = d * (d' * g' + d' * g) := by ring
  have e4 : d' * (2 * n) = 2 * (n * d') := by ring
  have e5 : d * (2 * n') = 2 * (n' * d) := by ring
  have t1 : 2 * n = d * g + d * g' := Nat.eq_of_mul_eq_mul_left hd' (by omega)
  have t2 : 2 * n' = d' * g' + d' * g := Nat.eq_of_mul_eq_mul_left hd (by omega)
  have p1 := a2 t1
  have p2 := b2 t2
  have hmid : roundCode n' d' < roundCode n d - 1 := by omega
  have h3 := (roundCode_above (n := n') hd' hmid).1
  rw [← hg'] at h3
  have h4 : magOfCode (roundCode n d - 1) < g := magOfCode_strictMono (by omega)
  have h5 : d' * magOfCode (roundCode n d - 1) < d' * g := (Nat.mul_lt_mul_left hd').2 h4
  omega

/-- A bound on the grid bounds the rounded code from above. -/
theorem roundCode_le_of_le {n d c : Nat} (hd : 0 < d) (h : n ≤ d * magOfCode c) : roundCode n d ≤ c := by
  have := roundCode_mono (n := n) (d := d) (n' := magOfCode c) (d' := 1) hd Nat.one_pos
    (by rw [Nat.mul_one, Nat.mul_comm]; exact h)
  rwa [roundCode_magOfCode] at this

/-- A bound on the grid bounds the rounded code from below. -/
theorem le_roundCode_of_le {n d c : Nat} (hd : 0 < d) (h : d * magOfCode c ≤ n) : c ≤ roundCode n d := by
  have := roundCode_mono (n := magOfCode c) (d := 1) (n' := n) (d' := d) Nat.one_pos hd
    (by rw [Nat.mul_one, Nat.mul_comm]; exact h)
  rwa [roundCode_magOfCode] at this

end Sys2Proof.Machine
end

