-- ==== Sys2Proof/Laws/F64.lean ====
section
/-! SUPPORT. binary64 values: which are representable, the round trip with a register's bits, the named constants, and what each
primitive of R10 answers on finite operands. -/

namespace Sys2Proof.Machine

/-! ### Signs and codes -/

theorem infCode_lt : infCode < 2 ^ 63 := by decide

theorem withSign_toNat {neg : Bool} {c : Nat} (hc : c < 2 ^ 63) :
    (withSign neg c).toNat = if neg then 2 ^ 63 + c else c := by
  unfold withSign
  rw [BitVec.toNat_ofNat]
  exact Nat.mod_eq_of_lt (by split <;> omega)

theorem withSign_code {neg : Bool} {c : Nat} (hc : c < 2 ^ 63) : (withSign neg c).toNat % 2 ^ 63 = c := by
  rw [withSign_toNat hc]; split <;> omega

theorem withSign_sign {neg : Bool} {c : Nat} (hc : c < 2 ^ 63) :
    decide (2 ^ 63 ≤ (withSign neg c).toNat) = neg := by
  rw [withSign_toNat hc]
  cases neg
  · rw [if_neg (by decide), decide_eq_false_iff_not]; omega
  · rw [if_pos rfl, decide_eq_true_iff]; omega

theorem withSign_of_word (x : Word) : withSign (decide (2 ^ 63 ≤ x.toNat)) (x.toNat % 2 ^ 63) = x := by
  apply BitVec.eq_of_toNat_eq
  rw [withSign_toNat (Nat.mod_lt _ (by decide))]
  have := x.isLt
  by_cases h : 2 ^ 63 ≤ x.toNat
  · rw [decide_eq_true h, if_pos rfl]; omega
  · rw [decide_eq_false h, if_neg (by decide)]; omega

/-! ### Representable values -/

/-- A value that some register pattern denotes: a finite one lies on the grid, a NaN keeps NaN bits. -/
def F64.Representable : F64 → Prop
  | .fin _ m => ∃ c, c < infCode ∧ m = magOfCode c
  | .inf _   => True
  | .nan b   => infCode < b.toNat % 2 ^ 63

theorem valueOfCode_finite {neg : Bool} {c : Nat} (h : c < infCode) : valueOfCode neg c = .fin neg (magOfCode c) :=
  if_pos h

theorem valueOfCode_infinite {neg : Bool} {c : Nat} (h : ¬ c < infCode) : valueOfCode neg c = .inf neg :=
  if_neg h

theorem valueOfCode_representable (neg : Bool) (c : Nat) : (valueOfCode neg c).Representable := by
  by_cases h : c < infCode
  · rw [valueOfCode_finite h]; exact ⟨c, h, rfl⟩
  · rw [valueOfCode_infinite h]; trivial

theorem roundTo_representable (neg : Bool) (n d : Nat) : (roundTo neg n d).Representable :=
  valueOfCode_representable _ _

theorem ofBits_representable (x : Word) : (F64.ofBits x).Representable := by
  unfold F64.ofBits
  split
  · assumption
  · exact valueOfCode_representable _ _

theorem fin_zero_representable (neg : Bool) : (F64.fin neg 0).Representable := ⟨0, by decide, by simp⟩

@[simp] theorem toBits_nan (b : Word) : (F64.nan b).toBits = b := rfl
@[simp] theorem toBits_inf (s : Bool) : (F64.inf s).toBits = withSign s infCode := rfl
@[simp] theorem toBits_fin (s : Bool) (m : Nat) : (F64.fin s m).toBits = withSign s (roundCode m 1) := rfl

/-- The bits of a value read back as the value. -/
theorem ofBits_toBits {r : F64} (h : r.Representable) : F64.ofBits r.toBits = r := by
  cases r with
  | nan b => exact if_pos h
  | inf neg =>
    unfold F64.toBits F64.ofBits
    rw [withSign_code infCode_lt, withSign_sign infCode_lt, if_neg (Nat.lt_irrefl _),
      valueOfCode_infinite (Nat.lt_irrefl _)]
  | fin neg m =>
    obtain ⟨c, hc, rfl⟩ := h
    have hc' : c < 2 ^ 63 := hc.trans infCode_lt
    rw [toBits_fin, roundCode_magOfCode]
    unfold F64.ofBits
    rw [withSign_code hc', withSign_sign hc', if_neg (by omega), valueOfCode_finite hc]

/-! ### The named constants (R12) -/

theorem f64Zero_eq : f64Zero = .fin false 0 := by decide +kernel
theorem f64One_eq : f64One = .fin false unitsOfOne := by decide +kernel
theorem f64MinusOne_eq : f64MinusOne = .fin true unitsOfOne := by decide +kernel
theorem f64Two_eq : f64Two = .fin false (2 * unitsOfOne) := by decide +kernel
theorem f64Num127_eq : f64Num127 = .fin false (127 * unitsOfOne) := by decide +kernel

theorem unitsOfOne_pos : 0 < unitsOfOne := by decide +kernel

/-! ### The bits of a finite register -/

theorem ofBits_finite_iff (x : Word) : isFinite (F64.ofBits x) = true ↔ x.toNat % 2 ^ 63 < infCode := by
  unfold F64.ofBits valueOfCode
  split
  · rename_i h
    simp only [isFinite, Bool.false_eq_true, false_iff]
    omega
  · split <;> rename_i h <;> simp only [isFinite, h, Bool.false_eq_true]

theorem ofBits_of_finite {x : Word} (h : x.toNat % 2 ^ 63 < infCode) :
    F64.ofBits x = .fin (decide (2 ^ 63 ≤ x.toNat)) (magOfCode (x.toNat % 2 ^ 63)) := by
  unfold F64.ofBits
  rw [if_neg (by omega), valueOfCode_finite h]

/-! ### Finiteness and the primitives on finite operands -/

theorem isFinite_iff {x : F64} : isFinite x = true ↔ ∃ s m, x = .fin s m := by
  cases x <;> simp [isFinite]

@[simp] theorem isFinite_fin (s : Bool) (m : Nat) : isFinite (.fin s m) = true := rfl
@[simp] theorem isFinite_inf (s : Bool) : isFinite (.inf s) = false := rfl
@[simp] theorem isFinite_nan (b : Word) : isFinite (.nan b) = false := rfl
@[simp] theorem isNaN_fin (s : Bool) (m : Nat) : isNaN (.fin s m) = false := rfl
@[simp] theorem isNaN_inf (s : Bool) : isNaN (.inf s) = false := rfl
@[simp] theorem isNaN_nan (b : Word) : isNaN (.nan b) = true := rfl
@[simp] theorem isNaN_nanResult (o : NanSource) (a b : F64) : isNaN (nanResult o a b) = true := rfl
@[simp] theorem isFinite_nanResult (o : NanSource) (a b : F64) : isFinite (nanResult o a b) = false := rfl

theorem valueOfCode_not_nan (neg : Bool) (c : Nat) : isNaN (valueOfCode neg c) = false := by
  unfold valueOfCode; split <;> rfl

theorem roundTo_not_nan (neg : Bool) (n d : Nat) : isNaN (roundTo neg n d) = false := valueOfCode_not_nan _ _

theorem isFinite_roundTo {neg : Bool} {n d : Nat} :
    isFinite (roundTo neg n d) = true ↔ roundCode n d < infCode := by
  unfold roundTo valueOfCode
  split <;> rename_i h <;> simp [h]

theorem roundTo_finite {neg : Bool} {n d : Nat} (h : roundCode n d < infCode) :
    roundTo neg n d = .fin neg (magOfCode (roundCode n d)) := valueOfCode_finite h

@[simp] theorem roundTo_zero (neg : Bool) (d : Nat) : roundTo neg 0 d = .fin neg 0 := by
  rw [roundTo_finite (by rw [roundCode_zero]; decide), roundCode_zero, magOfCode_zero]

/-- A quotient on the grid is not rounded at all. -/
theorem roundTo_exact {neg : Bool} {n d c : Nat} (hd : 0 < d) (hc : c < infCode) (h : n = d * magOfCode c) :
    roundTo neg n d = .fin neg (magOfCode c) := by
  have := roundCode_eq_of_exact hd h
  rw [roundTo_finite (by omega), this]

/-- A finite quotient bounded by a grid point rounds to a finite value bounded by it. -/
theorem roundTo_le {neg : Bool} {n d c : Nat} (hd : 0 < d) (hc : c < infCode) (h : n ≤ d * magOfCode c) :
    ∃ c', c' ≤ c ∧ roundTo neg n d = .fin neg (magOfCode c') :=
  have hle := roundCode_le_of_le hd h
  ⟨roundCode n d, hle, roundTo_finite (by omega)⟩

@[simp] theorem mul64_fin (s t : Bool) (m n : Nat) :
    mul64 (.fin s m) (.fin t n) = roundTo (s ^^ t) (m * n) unitsOfOne := rfl

@[simp] theorem mul64_zero_left (s t : Bool) (n : Nat) : mul64 (.fin s 0) (.fin t n) = .fin (s ^^ t) 0 := by
  rw [mul64_fin, Nat.zero_mul, roundTo_zero]

@[simp] theorem mul64_zero_right (s t : Bool) (m : Nat) : mul64 (.fin s m) (.fin t 0) = .fin (s ^^ t) 0 := by
  rw [mul64_fin, Nat.mul_zero, roundTo_zero]

theorem div64_fin {s t : Bool} {m n : Nat} (hn : n ≠ 0) :
    div64 (.fin s m) (.fin t n) = roundTo (s ^^ t) (m * unitsOfOne) n := if_neg hn

theorem fmod64_fin {s t : Bool} {m n : Nat} (hn : n ≠ 0) :
    fmod64 (.fin s m) (.fin t n) = .fin s (m % n) := if_neg hn

@[simp] theorem add64_fin (s t : Bool) (m n : Nat) :
    add64 (.fin s m) (.fin t n) =
      if signedMag s m + signedMag t n = 0 then .fin (s && t) 0
      else roundTo (decide (signedMag s m + signedMag t n < 0)) (signedMag s m + signedMag t n).natAbs 1 := rfl

theorem lt64_fin (s t : Bool) (m n : Nat) :
    lt64 (.fin s m) (.fin t n) = decide (signedMag s m < signedMag t n) := rfl
theorem le64_fin (s t : Bool) (m n : Nat) :
    le64 (.fin s m) (.fin t n) = decide (signedMag s m ≤ signedMag t n) := rfl
@[simp] theorem lt64_fin_true {s t : Bool} {m n : Nat} :
    lt64 (.fin s m) (.fin t n) = true ↔ signedMag s m < signedMag t n := decide_eq_true_iff
@[simp] theorem le64_fin_true {s t : Bool} {m n : Nat} :
    le64 (.fin s m) (.fin t n) = true ↔ signedMag s m ≤ signedMag t n := decide_eq_true_iff
@[simp] theorem lt64_fin_false {s t : Bool} {m n : Nat} :
    lt64 (.fin s m) (.fin t n) = false ↔ signedMag t n ≤ signedMag s m := by
  rw [lt64_fin, decide_eq_false_iff_not, Int.not_lt]
@[simp] theorem le64_fin_false {s t : Bool} {m n : Nat} :
    le64 (.fin s m) (.fin t n) = false ↔ signedMag t n < signedMag s m := by
  rw [le64_fin, decide_eq_false_iff_not, Int.not_le]
@[simp] theorem gt64_def (a b : F64) : gt64 a b = lt64 b a := rfl

@[simp] theorem signedMag_false (m : Nat) : signedMag false m = m := rfl
@[simp] theorem signedMag_true (m : Nat) : signedMag true m = -(m : Int) := rfl
@[simp] theorem signedMag_zero (s : Bool) : signedMag s 0 = 0 := by cases s <;> rfl

theorem lt64_irrefl (a : F64) : lt64 a a = false := by
  cases a with
  | nan b => rfl
  | inf s => cases s <;> rfl
  | fin s m => simp

/-- The remainder of two grid points is on the grid: "The result is always representable in binary64" (R10). -/
theorem mod_on_grid {a b : Nat} (hb : b < infCode) (hb0 : b ≠ 0) :
    ∃ c, c < infCode ∧ magOfCode a % magOfCode b = magOfCode c := by
  obtain ⟨ma, ka, ha', hlo, hhi, -⟩ := code_unpack a
  obtain ⟨mb, kb, hb', hlo', hhi', -⟩ := code_unpack b
  have hga : magOfCode a = ma * 2 ^ ka := by rw [ha', magOfCode_pack hlo hhi.le]
  have hgb : magOfCode b = mb * 2 ^ kb := by rw [hb', magOfCode_pack hlo' hhi'.le]
  have hpos : 0 < magOfCode b := by
    have := magOfCode_strictMono (Nat.pos_of_ne_zero hb0); simpa using this
  suffices h : ∃ r k, r < 2 ^ 53 ∧ magOfCode a % magOfCode b = r * 2 ^ k by
    obtain ⟨r, k, hr, he⟩ := h
    have key : ∃ c, r * 2 ^ k = magOfCode c := by
      clear he hga hgb hpos
      induction k generalizing r with
      | zero => exact ⟨r, by have := magOfCode_pack (m := r) (k := 0) (.inl rfl) hr.le; simpa using this.symm⟩
      | succ k ih =>
        by_cases h2 : 2 ^ 52 ≤ r
        · exact ⟨r + (k + 1) * 2 ^ 52, (magOfCode_pack (.inr h2) hr.le).symm⟩
        · obtain ⟨c, hc⟩ := ih (2 * r) (by omega)
          exact ⟨c, by rw [← hc, Nat.pow_succ]; ring⟩
    obtain ⟨c, hc⟩ := key
    refine ⟨c, ?_, he.trans hc⟩
    have hlt : magOfCode a % magOfCode b < magOfCode b := Nat.mod_lt _ hpos
    rw [he, hc] at hlt
    exact (magOfCode_strictMono.lt_iff_lt.1 hlt).trans hb
  rcases Nat.le_total ka kb with hk | hk
  · have e : mb * 2 ^ kb = mb * 2 ^ (kb - ka) * 2 ^ ka := by
      rw [Nat.mul_assoc, ← Nat.pow_add, Nat.sub_add_cancel hk]
    refine ⟨ma % (mb * 2 ^ (kb - ka)), ka, (Nat.mod_le _ _).trans_lt hhi, ?_⟩
    rw [hga, hgb, e, Nat.mul_mod_mul_right]
  · have e : ma * 2 ^ ka = ma * 2 ^ (ka - kb) * 2 ^ kb := by
      rw [Nat.mul_assoc, ← Nat.pow_add, Nat.sub_add_cancel hk]
    have hmb : 0 < mb := by
      rcases Nat.eq_zero_or_pos mb with h | h
      · rw [hgb, h, Nat.zero_mul] at hpos; omega
      · exact h
    refine ⟨ma * 2 ^ (ka - kb) % mb, kb, (Nat.mod_lt _ hmb).trans hhi', ?_⟩
    rw [hga, hgb, e, Nat.mul_mod_mul_right]

/-! ### Zero, the bound on the sine, and quotients -/

theorem magOfCode_pos {c : Nat} : 0 < magOfCode c ↔ 0 < c := by
  simpa using magOfCode_strictMono.lt_iff_lt (a := 0) (b := c)

theorem ofBits_PZERO : F64.ofBits PZERO = .fin false 0 := by decide +kernel
theorem ofBits_NZERO : F64.ofBits NZERO = .fin true 0 := by decide +kernel

/-- A zero register is the zero of its sign bit. -/
theorem ofBits_of_zeroWord {x : Word} (h : x = PZERO ∨ x = NZERO) : F64.ofBits x = .fin (x.getLsbD 63) 0 := by
  rcases h with rfl | rfl
  · rw [ofBits_PZERO]; rfl
  · rw [ofBits_NZERO]; rfl

/-- A value within [-1.0, 1.0] is finite, of magnitude at most one. -/
theorem withinUnit_fin (y : F64) : ∃ s m, withinUnit y = .fin s m ∧ m ≤ unitsOfOne := by
  unfold withinUnit
  split
  · rename_i h
    simp only [Bool.and_eq_true] at h
    obtain ⟨⟨h1, h2⟩, h3⟩ := h
    obtain ⟨s, m, rfl⟩ := isFinite_iff.1 h1
    rw [show F64.ofBits MINUS_ONE = .fin true unitsOfOne from f64MinusOne_eq, le64_fin_true] at h2
    rw [show F64.ofBits ONE = .fin false unitsOfOne from f64One_eq, le64_fin_true] at h3
    refine ⟨s, m, rfl, ?_⟩
    cases s
    · rw [signedMag_false, signedMag_false] at h3; omega
    · rw [signedMag_true, signedMag_true] at h2; omega
  · exact ⟨false, 0, rfl, Nat.zero_le _⟩

/-- What may be assumed of `SIN64` on a finite argument (R14), whatever the free value is. -/
theorem sin64_fin (s : Bool) (m : Nat) :
    ∃ t n, sin64 (.fin s m) = .fin t n ∧ n ≤ unitsOfOne ∧ (m = 0 → t = s ∧ n = 0) := by
  change ∃ t n, (if m = 0 then F64.fin s 0 else _) = .fin t n ∧ _
  by_cases hm : m = 0
  · rw [if_pos hm]
    exact ⟨s, 0, rfl, Nat.zero_le _, fun _ => ⟨rfl, rfl⟩⟩
  · rw [if_neg hm]
    obtain ⟨t, n, e, h⟩ := withinUnit_fin (F64.ofBits (Config.sinRaw (F64.toBits (.fin s m))))
    exact ⟨t, n, e, h, fun h => absurd h hm⟩

/-- A quotient that is finite lies on the grid. -/
theorem div64_representable (a : F64) {b : F64} (hf : isFinite (div64 a b) = true) : (div64 a b).Representable := by
  cases a with
  | nan x => cases b <;> cases hf
  | inf s => cases b <;> cases hf
  | fin s m =>
    cases b with
    | nan y => cases hf
    | inf t => exact fin_zero_representable _
    | fin t n =>
      by_cases hn : n = 0
      · unfold div64 at hf
        simp only [hn, if_true] at hf
        split at hf <;> cases hf
      · rw [div64_fin hn]; exact roundTo_representable _ _ _

end Sys2Proof.Machine
end

