-- ==== Sys2Proof/Laws/Noise.lean ====
section
/-! SUPPORT. The shift register bit by bit (R163). -/

namespace Sys2Proof.Machine

/-- The feedback bit of one advance (R163 step 3a). -/
theorem advance_bit13 (b : Lfsr) (m : Mode) :
    (advance b m).getLsbD 13 = (b.getLsbD 0 ^^ b.getLsbD (tapBit m)) := by
  simp [advance]

theorem advance_bit14 (b : Lfsr) (m : Mode) : (advance b m).getLsbD 14 = false := by
  simp [advance]

end Sys2Proof.Machine
end

