-- ==== Sys2Proof/Laws/State.lean ====
section
/-! SUPPORT. One lemma per field of State per shared update, each true by definition, so that no proof unfolds a record update. -/

namespace Sys2Proof.Machine

/-! RecordError writes STATUS alone (R224). -/

@[simp] theorem recordError_freq (c : ErrorCode) (s : State) : (recordError c s).freq = s.freq := rfl
@[simp] theorem recordError_vol (c : ErrorCode) (s : State) : (recordError c s).vol = s.vol := rfl
@[simp] theorem recordError_time (c : ErrorCode) (s : State) : (recordError c s).time = s.time := rfl
@[simp] theorem recordError_mvol (c : ErrorCode) (s : State) : (recordError c s).mvol = s.mvol := rfl
@[simp] theorem recordError_ain (c : ErrorCode) (s : State) : (recordError c s).ain = s.ain := rfl
@[simp] theorem recordError_amp (c : ErrorCode) (s : State) : (recordError c s).amp = s.amp := rfl
@[simp] theorem recordError_pcm (c : ErrorCode) (s : State) : (recordError c s).pcm = s.pcm := rfl
@[simp] theorem recordError_status (c : ErrorCode) (s : State) : (recordError c s).status = s.status.record c := rfl
@[simp] theorem recordError_voice (c : ErrorCode) (s : State) : (recordError c s).voice = s.voice := rfl
@[simp] theorem recordError_lfsr (c : ErrorCode) (s : State) : (recordError c s).lfsr = s.lfsr := rfl
@[simp] theorem recordError_phase (c : ErrorCode) (s : State) : (recordError c s).phase = s.phase := rfl
@[simp] theorem recordError_freqL (c : ErrorCode) (s : State) : (recordError c s).freqL = s.freqL := rfl
@[simp] theorem recordError_volL (c : ErrorCode) (s : State) : (recordError c s).volL = s.volL := rfl
@[simp] theorem recordError_pending (c : ErrorCode) (s : State) : (recordError c s).pending = s.pending := rfl
@[simp] theorem recordError_hostReads (c : ErrorCode) (s : State) : (recordError c s).hostReads = s.hostReads := rfl

/-! A successful INIT (R93). -/

@[simp] theorem latchVoice_freq (k : Kind) (m : Mode) (s : State) : (latchVoice k m s).freq = s.freq := rfl
@[simp] theorem latchVoice_vol (k : Kind) (m : Mode) (s : State) : (latchVoice k m s).vol = s.vol := rfl
@[simp] theorem latchVoice_time (k : Kind) (m : Mode) (s : State) : (latchVoice k m s).time = s.time := rfl
@[simp] theorem latchVoice_mvol (k : Kind) (m : Mode) (s : State) : (latchVoice k m s).mvol = s.mvol := rfl
@[simp] theorem latchVoice_ain (k : Kind) (m : Mode) (s : State) : (latchVoice k m s).ain = s.ain := rfl
@[simp] theorem latchVoice_amp (k : Kind) (m : Mode) (s : State) : (latchVoice k m s).amp = s.amp := rfl
@[simp] theorem latchVoice_pcm (k : Kind) (m : Mode) (s : State) : (latchVoice k m s).pcm = s.pcm := rfl
@[simp] theorem latchVoice_status (k : Kind) (m : Mode) (s : State) : (latchVoice k m s).status = Status.cleared := rfl
@[simp] theorem latchVoice_voice (k : Kind) (m : Mode) (s : State) : (latchVoice k m s).voice = { kind := k, mode := m } := rfl
@[simp] theorem latchVoice_lfsr (k : Kind) (m : Mode) (s : State) : (latchVoice k m s).lfsr = lfsrSeed := rfl
@[simp] theorem latchVoice_phase (k : Kind) (m : Mode) (s : State) : (latchVoice k m s).phase = PZERO := rfl
@[simp] theorem latchVoice_freqL (k : Kind) (m : Mode) (s : State) : (latchVoice k m s).freqL = s.freq := rfl
@[simp] theorem latchVoice_volL (k : Kind) (m : Mode) (s : State) : (latchVoice k m s).volL = s.vol := rfl
@[simp] theorem latchVoice_pending (k : Kind) (m : Mode) (s : State) : (latchVoice k m s).pending = s.pending := rfl
@[simp] theorem latchVoice_hostReads (k : Kind) (m : Mode) (s : State) : (latchVoice k m s).hostReads = s.hostReads := rfl

/-! A completed sample (R101). -/

@[simp] theorem commitSample_freq (r : Sampled) (s : State) : (commitSample r s).freq = s.freq := rfl
@[simp] theorem commitSample_vol (r : Sampled) (s : State) : (commitSample r s).vol = s.vol := rfl
@[simp] theorem commitSample_time (r : Sampled) (s : State) : (commitSample r s).time = s.time := rfl
@[simp] theorem commitSample_mvol (r : Sampled) (s : State) : (commitSample r s).mvol = s.mvol := rfl
@[simp] theorem commitSample_ain (r : Sampled) (s : State) : (commitSample r s).ain = s.ain := rfl
@[simp] theorem commitSample_amp (r : Sampled) (s : State) : (commitSample r s).amp = r.amp := rfl
@[simp] theorem commitSample_pcm (r : Sampled) (s : State) : (commitSample r s).pcm = s.pcm := rfl
@[simp] theorem commitSample_status (r : Sampled) (s : State) : (commitSample r s).status = s.status.setEdge r.edge := rfl
@[simp] theorem commitSample_voice (r : Sampled) (s : State) : (commitSample r s).voice = s.voice := rfl
@[simp] theorem commitSample_lfsr (r : Sampled) (s : State) : (commitSample r s).lfsr = r.lfsr := rfl
@[simp] theorem commitSample_phase (r : Sampled) (s : State) : (commitSample r s).phase = r.phase := rfl
@[simp] theorem commitSample_freqL (r : Sampled) (s : State) : (commitSample r s).freqL = s.freqL := rfl
@[simp] theorem commitSample_volL (r : Sampled) (s : State) : (commitSample r s).volL = s.volL := rfl
@[simp] theorem commitSample_pending (r : Sampled) (s : State) : (commitSample r s).pending = s.pending := rfl
@[simp] theorem commitSample_hostReads (r : Sampled) (s : State) : (commitSample r s).hostReads = s.hostReads := rfl

/-! A completed quantization (R191). -/

@[simp] theorem commitQuant_freq (q : Quantized) (s : State) : (commitQuant q s).freq = s.freq := rfl
@[simp] theorem commitQuant_vol (q : Quantized) (s : State) : (commitQuant q s).vol = s.vol := rfl
@[simp] theorem commitQuant_time (q : Quantized) (s : State) : (commitQuant q s).time = s.time := rfl
@[simp] theorem commitQuant_mvol (q : Quantized) (s : State) : (commitQuant q s).mvol = s.mvol := rfl
@[simp] theorem commitQuant_ain (q : Quantized) (s : State) : (commitQuant q s).ain = s.ain := rfl
@[simp] theorem commitQuant_amp (q : Quantized) (s : State) : (commitQuant q s).amp = s.amp := rfl
@[simp] theorem commitQuant_pcm (q : Quantized) (s : State) : (commitQuant q s).pcm = q.pcm := rfl
@[simp] theorem commitQuant_status (q : Quantized) (s : State) : (commitQuant q s).status = s.status.warn q.awarn q.cwarn := rfl
@[simp] theorem commitQuant_voice (q : Quantized) (s : State) : (commitQuant q s).voice = s.voice := rfl
@[simp] theorem commitQuant_lfsr (q : Quantized) (s : State) : (commitQuant q s).lfsr = s.lfsr := rfl
@[simp] theorem commitQuant_phase (q : Quantized) (s : State) : (commitQuant q s).phase = s.phase := rfl
@[simp] theorem commitQuant_freqL (q : Quantized) (s : State) : (commitQuant q s).freqL = s.freqL := rfl
@[simp] theorem commitQuant_volL (q : Quantized) (s : State) : (commitQuant q s).volL = s.volL := rfl
@[simp] theorem commitQuant_pending (q : Quantized) (s : State) : (commitQuant q s).pending = s.pending := rfl
@[simp] theorem commitQuant_hostReads (q : Quantized) (s : State) : (commitQuant q s).hostReads = s.hostReads := rfl

/-! A read transaction (R53). -/

@[simp] theorem deliverRead_freq (idx : RegIndex) (s : State) : (deliverRead idx s).freq = s.freq := rfl
@[simp] theorem deliverRead_vol (idx : RegIndex) (s : State) : (deliverRead idx s).vol = s.vol := rfl
@[simp] theorem deliverRead_time (idx : RegIndex) (s : State) : (deliverRead idx s).time = s.time := rfl
@[simp] theorem deliverRead_mvol (idx : RegIndex) (s : State) : (deliverRead idx s).mvol = s.mvol := rfl
@[simp] theorem deliverRead_ain (idx : RegIndex) (s : State) : (deliverRead idx s).ain = s.ain := rfl
@[simp] theorem deliverRead_amp (idx : RegIndex) (s : State) : (deliverRead idx s).amp = s.amp := rfl
@[simp] theorem deliverRead_pcm (idx : RegIndex) (s : State) : (deliverRead idx s).pcm = s.pcm := rfl
@[simp] theorem deliverRead_status (idx : RegIndex) (s : State) : (deliverRead idx s).status = s.status := rfl
@[simp] theorem deliverRead_voice (idx : RegIndex) (s : State) : (deliverRead idx s).voice = s.voice := rfl
@[simp] theorem deliverRead_lfsr (idx : RegIndex) (s : State) : (deliverRead idx s).lfsr = s.lfsr := rfl
@[simp] theorem deliverRead_phase (idx : RegIndex) (s : State) : (deliverRead idx s).phase = s.phase := rfl
@[simp] theorem deliverRead_freqL (idx : RegIndex) (s : State) : (deliverRead idx s).freqL = s.freqL := rfl
@[simp] theorem deliverRead_volL (idx : RegIndex) (s : State) : (deliverRead idx s).volL = s.volL := rfl
@[simp] theorem deliverRead_pending (idx : RegIndex) (s : State) : (deliverRead idx s).pending = s.pending := rfl
@[simp] theorem deliverRead_hostReads (idx : RegIndex) (s : State) : (deliverRead idx s).hostReads = s.hostReads ++ [portRead s idx] := rfl

/-! A command placed in front of the host's transactions. -/

@[simp] theorem placeCommand_freq (w : Word) (s : State) : (placeCommand w s).freq = s.freq := rfl
@[simp] theorem placeCommand_vol (w : Word) (s : State) : (placeCommand w s).vol = s.vol := rfl
@[simp] theorem placeCommand_time (w : Word) (s : State) : (placeCommand w s).time = s.time := rfl
@[simp] theorem placeCommand_mvol (w : Word) (s : State) : (placeCommand w s).mvol = s.mvol := rfl
@[simp] theorem placeCommand_ain (w : Word) (s : State) : (placeCommand w s).ain = s.ain := rfl
@[simp] theorem placeCommand_amp (w : Word) (s : State) : (placeCommand w s).amp = s.amp := rfl
@[simp] theorem placeCommand_pcm (w : Word) (s : State) : (placeCommand w s).pcm = s.pcm := rfl
@[simp] theorem placeCommand_status (w : Word) (s : State) : (placeCommand w s).status = s.status := rfl
@[simp] theorem placeCommand_voice (w : Word) (s : State) : (placeCommand w s).voice = s.voice := rfl
@[simp] theorem placeCommand_lfsr (w : Word) (s : State) : (placeCommand w s).lfsr = s.lfsr := rfl
@[simp] theorem placeCommand_phase (w : Word) (s : State) : (placeCommand w s).phase = s.phase := rfl
@[simp] theorem placeCommand_freqL (w : Word) (s : State) : (placeCommand w s).freqL = s.freqL := rfl
@[simp] theorem placeCommand_volL (w : Word) (s : State) : (placeCommand w s).volL = s.volL := rfl
@[simp] theorem placeCommand_pending (w : Word) (s : State) : (placeCommand w s).pending = .write 0x0 w :: s.pending := rfl
@[simp] theorem placeCommand_hostReads (w : Word) (s : State) : (placeCommand w s).hostReads = s.hostReads := rfl

/-! The reset event (R250). -/

@[simp] theorem resetBlock_freq (s : State) : (resetBlock s).freq = PZERO := rfl
@[simp] theorem resetBlock_vol (s : State) : (resetBlock s).vol = PZERO := rfl
@[simp] theorem resetBlock_time (s : State) : (resetBlock s).time = PZERO := rfl
@[simp] theorem resetBlock_mvol (s : State) : (resetBlock s).mvol = PZERO := rfl
@[simp] theorem resetBlock_ain (s : State) : (resetBlock s).ain = PZERO := rfl
@[simp] theorem resetBlock_amp (s : State) : (resetBlock s).amp = PZERO := rfl
@[simp] theorem resetBlock_pcm (s : State) : (resetBlock s).pcm = 0x00 := rfl
@[simp] theorem resetBlock_status (s : State) : (resetBlock s).status = Status.reset := rfl
@[simp] theorem resetBlock_voice (s : State) : (resetBlock s).voice = { kind := .silence, mode := .long } := rfl
@[simp] theorem resetBlock_lfsr (s : State) : (resetBlock s).lfsr = lfsrSeed := rfl
@[simp] theorem resetBlock_phase (s : State) : (resetBlock s).phase = PZERO := rfl
@[simp] theorem resetBlock_freqL (s : State) : (resetBlock s).freqL = PZERO := rfl
@[simp] theorem resetBlock_volL (s : State) : (resetBlock s).volL = PZERO := rfl
@[simp] theorem resetBlock_pending (s : State) : (resetBlock s).pending = s.pending := rfl
@[simp] theorem resetBlock_hostReads (s : State) : (resetBlock s).hostReads = s.hostReads := rfl

/-! The updates of STATUS (R30, R32). -/

@[simp] theorem Status.setEdge_err (e : Bool) (st : Status) : (st.setEdge e).err = st.err := rfl
@[simp] theorem Status.setEdge_errCode (e : Bool) (st : Status) : (st.setEdge e).errCode = st.errCode := rfl
@[simp] theorem Status.setEdge_awarn (e : Bool) (st : Status) : (st.setEdge e).awarn = st.awarn := rfl
@[simp] theorem Status.setEdge_cwarn (e : Bool) (st : Status) : (st.setEdge e).cwarn = st.cwarn := rfl
@[simp] theorem Status.setEdge_edge (e : Bool) (st : Status) : (st.setEdge e).edge = e := rfl

@[simp] theorem Status.warn_err (aw cw : Bool) (st : Status) : (st.warn aw cw).err = st.err := rfl
@[simp] theorem Status.warn_errCode (aw cw : Bool) (st : Status) : (st.warn aw cw).errCode = st.errCode := rfl
@[simp] theorem Status.warn_awarn (aw cw : Bool) (st : Status) : (st.warn aw cw).awarn = (st.awarn || aw) := rfl
@[simp] theorem Status.warn_cwarn (aw cw : Bool) (st : Status) : (st.warn aw cw).cwarn = (st.cwarn || cw) := rfl
@[simp] theorem Status.warn_edge (aw cw : Bool) (st : Status) : (st.warn aw cw).edge = st.edge := rfl

@[simp] theorem Status.cleared_err : Status.cleared.err = false := rfl
@[simp] theorem Status.cleared_errCode : Status.cleared.errCode = 0 := rfl
@[simp] theorem Status.cleared_awarn : Status.cleared.awarn = false := rfl
@[simp] theorem Status.cleared_cwarn : Status.cleared.cwarn = false := rfl
@[simp] theorem Status.cleared_edge : Status.cleared.edge = false := rfl

@[simp] theorem Status.reset_err : Status.reset.err = false := rfl
@[simp] theorem Status.reset_errCode : Status.reset.errCode = 0 := rfl
@[simp] theorem Status.reset_awarn : Status.reset.awarn = false := rfl
@[simp] theorem Status.reset_cwarn : Status.reset.cwarn = false := rfl
@[simp] theorem Status.reset_edge : Status.reset.edge = false := rfl

@[simp] theorem Status.failedInit_err (c : ErrorCode) : (Status.failedInit c).err = true := rfl
@[simp] theorem Status.failedInit_errCode (c : ErrorCode) : (Status.failedInit c).errCode = errorNumber c := rfl
@[simp] theorem Status.failedInit_awarn (c : ErrorCode) : (Status.failedInit c).awarn = false := rfl
@[simp] theorem Status.failedInit_cwarn (c : ErrorCode) : (Status.failedInit c).cwarn = false := rfl
@[simp] theorem Status.failedInit_edge (c : ErrorCode) : (Status.failedInit c).edge = false := rfl

/-- RecordError keeps the first error and never touches the warnings or EDGE (R224). -/
theorem Status.record_of_err {c : ErrorCode} {st : Status} (h : st.err = true) : st.record c = st := by
  simp [Status.record, h]

theorem Status.record_of_no_err {c : ErrorCode} {st : Status} (h : st.err = false) :
    st.record c = { st with err := true, errCode := errorNumber c } := by
  simp [Status.record, h]

@[simp] theorem Status.record_err (c : ErrorCode) (st : Status) : (st.record c).err = true := by
  unfold Status.record; split <;> simp_all

@[simp] theorem Status.record_awarn (c : ErrorCode) (st : Status) : (st.record c).awarn = st.awarn := by
  unfold Status.record; split <;> rfl

@[simp] theorem Status.record_cwarn (c : ErrorCode) (st : Status) : (st.record c).cwarn = st.cwarn := by
  unfold Status.record; split <;> rfl

@[simp] theorem Status.record_edge (c : ErrorCode) (st : Status) : (st.record c).edge = st.edge := by
  unfold Status.record; split <;> rfl

theorem recordError_of_err {c : ErrorCode} {s : State} (h : s.status.err = true) : recordError c s = s := by
  unfold recordError; rw [Status.record_of_err h]

end Sys2Proof.Machine
end

