-- ==== Sys2Proof/Laws/Ops.lean ====
section
/-! SUPPORT. What each shared operation can do, said once: INIT, one sample, one quantization, and a whole command. -/

namespace Sys2Proof.Machine

/-! ### INIT (R93) -/

theorem initVoice_ok {k : Kind} {m : Mode} {s : State} (hf : freqOK k (freqOperand s) = true)
    (hv : volOK k (volOperand s) = true) : initVoice k m s = latchVoice k m s := by
  simp [initVoice, initError, hf, hv]

theorem initVoice_badFreq {k : Kind} {m : Mode} {s : State} (hf : freqOK k (freqOperand s) = false) :
    initVoice k m s = { s with status := Status.failedInit .invalidFreq } := by
  simp [initVoice, initError, hf]

theorem initVoice_badVol {k : Kind} {m : Mode} {s : State} (hf : freqOK k (freqOperand s) = true)
    (hv : volOK k (volOperand s) = false) :
    initVoice k m s = { s with status := Status.failedInit .invalidVol } := by
  simp [initVoice, initError, hf, hv]

/-- INIT latches the voice, its operands having passed, or replaces STATUS by its own error. -/
theorem initVoice_cases (k : Kind) (m : Mode) (s : State) :
    (freqOK k (freqOperand s) = true ∧ volOK k (volOperand s) = true ∧ initVoice k m s = latchVoice k m s) ∨
    (∃ c, initError k s = some c ∧ initVoice k m s = { s with status := Status.failedInit c }) := by
  cases hf : freqOK k (freqOperand s)
  · exact .inr ⟨_, by simp [initError, hf], initVoice_badFreq hf⟩
  · cases hv : volOK k (volOperand s)
    · exact .inr ⟨_, by simp [initError, hf, hv], initVoice_badVol hf hv⟩
    · exact .inl ⟨rfl, rfl, initVoice_ok hf hv⟩

/-! ### One sample (R101) -/

/-- What a sample that raised nothing yields, by kind. -/
theorem sampleVoice_ok {s : State} {r : Sampled} (h : sampleVoice s = .ok r) :
    timeOK (timeOperand s) = true ∧
    ((s.voice.kind = .silence ∧ r = statelessSample PZERO s) ∨
     (s.voice.kind = .sine ∧ isFinite (sineArg (timeOperand s) (freqLOperand s)) = true ∧
        r = statelessSample (mul64 (sin64 (sineArg (timeOperand s) (freqLOperand s))) (volLOperand s)).toBits s) ∨
     (s.voice.kind = .square ∧ r = statelessSample (squareAmp s) s) ∨
     (s.voice.kind = .noise ∧ r = noiseStep s)) := by
  unfold sampleVoice at h
  split at h
  · rename_i ht
    refine ⟨ht, ?_⟩
    split at h <;> rename_i hk
    · cases h; exact .inl ⟨hk, rfl⟩
    · unfold sineAmp at h
      split at h
      · rename_i ha
        cases h; exact .inr (.inl ⟨hk, ha, rfl⟩)
      · cases h
    · cases h; exact .inr (.inr (.inl ⟨hk, rfl⟩))
    · cases h; exact .inr (.inr (.inr ⟨hk, rfl⟩))
  · cases h

/-- Why a sample raises an error, the time first (R223). -/
theorem sampleVoice_error {s : State} {c : ErrorCode} (h : sampleVoice s = .error c) :
    (timeOK (timeOperand s) = false ∧ c = .invalidTime) ∨
    (timeOK (timeOperand s) = true ∧ s.voice.kind = .sine ∧
      isFinite (sineArg (timeOperand s) (freqLOperand s)) = false ∧ c = .argOverflow) := by
  unfold sampleVoice at h
  split at h
  · rename_i ht
    split at h <;> rename_i hk
    · cases h
    · unfold sineAmp at h
      split at h
      · cases h
      · rename_i ha
        cases h
        exact .inr ⟨ht, hk, by simpa using ha, rfl⟩
    · cases h
    · cases h
  · rename_i ht
    cases h
    exact .inl ⟨by simpa using ht, rfl⟩

/-- On a voice that is not NOISE a sample leaves LFSR and PHASE as they are (R101, D38). -/
theorem sampleVoice_stateless {s : State} {r : Sampled} (h : sampleVoice s = .ok r) (hk : s.voice.kind ≠ .noise) :
    r.edge = false ∧ r.lfsr = s.lfsr ∧ r.phase = s.phase := by
  obtain ⟨-, h | h | h | h⟩ := sampleVoice_ok h
  · rw [h.2]; exact ⟨rfl, rfl, rfl⟩
  · rw [h.2.2]; exact ⟨rfl, rfl, rfl⟩
  · rw [h.2]; exact ⟨rfl, rfl, rfl⟩
  · exact absurd h.1 hk

/-! ### One quantization (R190) -/

theorem quantize_ok {a mv : F64} {q : Quantized} (h : quantize a mv = .ok q) :
    isFinite mv = true ∧ ∃ n, floorZ (quantValue a mv) = some n ∧
      q = { pcm := pcmByte n, awarn := amplitudeWarning a, cwarn := clampWarning n } := by
  unfold quantize at h
  split at h
  · rename_i hm
    split at h
    · cases h
    · rename_i n hn
      cases h
      exact ⟨hm, n, hn, rfl⟩
  · cases h

theorem floorZ_none {y : F64} : floorZ y = none ↔ isNaN y = true := by
  cases y <;> simp [floorZ]

theorem quantize_error {a mv : F64} {c : ErrorCode} (h : quantize a mv = .error c) :
    (isFinite mv = false ∧ c = .invalidMvol) ∨
    (isFinite mv = true ∧ isNaN (quantValue a mv) = true ∧ c = .invalidAmp) := by
  unfold quantize at h
  split at h
  · rename_i hm
    split at h
    · rename_i hn
      cases h
      exact .inr ⟨hm, floorZ_none.1 hn, rfl⟩
    · cases h
  · rename_i hm
    cases h
    exact .inl ⟨by simpa using hm, rfl⟩

/-! ### A whole command (R90) -/

@[simp] theorem isInit_initCommand (k : Kind) (m : Mode) : isInit (initCommand k m) = true := by
  cases k <;> cases m <;> rfl

/-- Every INIT command is that of a kind and a mode, the mode long unless the kind is NOISE, and runs `Init` of both. -/
theorem exec_initCommand {k : Kind} {m : Mode} (h : k ≠ .noise → m = .long) (s : State) :
    exec (initCommand k m) s = .next (initVoice k m s) := by
  cases k
  · cases h nofun; rfl
  · cases h nofun; rfl
  · cases h nofun; rfl
  · cases m <;> rfl

theorem exec_sample {s : State} (he : s.status.err = false) : exec .sample s = .next (sampleBody s) := by
  change Host.Outcome.next (unlessError s (sampleBody s)) = _
  simp [unlessError, he]

theorem exec_quant {s : State} (he : s.status.err = false) : exec .quant s = .next (quantBody s) := by
  change Host.Outcome.next (unlessError s (quantBody s)) = _
  simp [unlessError, he]

theorem exec_sampleq {s : State} (he : s.status.err = false) : exec .sampleq s = .next (sampleqBody s) := by
  change Host.Outcome.next (unlessError s (sampleqBody s)) = _
  simp [unlessError, he]

/-- Everything a command can do, with the reason for it. Each line is a whole effect: nothing else of the state changes. -/
theorem exec_cases {i : Instr} {s t : State} (h : exec i s = .next t) :
    (isInit i = false ∧ (i = .nop ∨ s.status.err = true) ∧ t = s) ∨
    (∃ k m, (k ≠ .noise → m = .long) ∧ i = initCommand k m ∧ freqOK k (freqOperand s) = true ∧
      volOK k (volOperand s) = true ∧ t = latchVoice k m s) ∨
    (∃ k m c, (k ≠ .noise → m = .long) ∧ i = initCommand k m ∧ initError k s = some c ∧
      t = { s with status := Status.failedInit c }) ∨
    (isInit i = false ∧ s.status.err = false ∧ ∃ c, t = recordError c s ∧
      ((i = .sample ∧ sampleVoice s = .error c) ∨
       (i = .quant ∧ quantize (ainOperand s) (mvolOperand s) = .error c) ∨
       (i = .sampleq ∧ (sampleVoice s = .error c ∨
         ∃ r, sampleVoice s = .ok r ∧ quantize (F64.ofBits r.amp) (mvolOperand s) = .error c)))) ∨
    (i = .sample ∧ s.status.err = false ∧ ∃ r, sampleVoice s = .ok r ∧ t = commitSample r s) ∨
    (i = .quant ∧ s.status.err = false ∧
      ∃ q, quantize (ainOperand s) (mvolOperand s) = .ok q ∧ t = commitQuant q s) ∨
    (i = .sampleq ∧ s.status.err = false ∧
      ∃ r q, sampleVoice s = .ok r ∧ quantize (F64.ofBits r.amp) (mvolOperand s) = .ok q ∧
        t = commitQuant q (commitSample r s)) := by
  have init : ∀ k m, (k ≠ .noise → m = .long) → i = initCommand k m →
      (∃ k m, (k ≠ .noise → m = .long) ∧ i = initCommand k m ∧ freqOK k (freqOperand s) = true ∧
        volOK k (volOperand s) = true ∧ t = latchVoice k m s) ∨
      (∃ k m c, (k ≠ .noise → m = .long) ∧ i = initCommand k m ∧ initError k s = some c ∧
        t = { s with status := Status.failedInit c }) := fun k m hm hi => by
    have ht : t = initVoice k m s := by rw [hi, exec_initCommand hm] at h; exact (Host.Outcome.next.inj h).symm
    rcases initVoice_cases k m s with ⟨hf, hv, he⟩ | ⟨c, hc, he⟩
    · exact .inl ⟨k, m, hm, hi, hf, hv, ht.trans he⟩
    · exact .inr ⟨k, m, c, hm, hi, hc, ht.trans he⟩
  cases i with
  | nop => cases h; exact .inl ⟨rfl, .inl rfl, rfl⟩
  | initSil => exact .inr (or_assoc.1 (.inl (init .silence .long (fun _ => rfl) rfl)))
  | initSine => exact .inr (or_assoc.1 (.inl (init .sine .long (fun _ => rfl) rfl)))
  | initSqr => exact .inr (or_assoc.1 (.inl (init .square .long (fun _ => rfl) rfl)))
  | initNoise => exact .inr (or_assoc.1 (.inl (init .noise .long (fun _ => rfl) rfl)))
  | initNoiseS => exact .inr (or_assoc.1 (.inl (init .noise .short (fun h => absurd rfl h) rfl)))
  | sample =>
    cases he : s.status.err
    · rw [exec_sample he] at h
      cases h
      unfold sampleBody
      split
      · rename_i r hr; exact .inr (.inr (.inr (.inr (.inl ⟨rfl, rfl, r, hr, rfl⟩))))
      · rename_i c hc; exact .inr (.inr (.inr (.inl ⟨rfl, rfl, c, rfl, .inl ⟨rfl, hc⟩⟩)))
    · exact .inl ⟨rfl, .inr rfl, by cases h; exact if_pos he⟩
  | quant =>
    cases he : s.status.err
    · rw [exec_quant he] at h
      cases h
      unfold quantBody
      split
      · rename_i q hq; exact .inr (.inr (.inr (.inr (.inr (.inl ⟨rfl, rfl, q, hq, rfl⟩)))))
      · rename_i c hc; exact .inr (.inr (.inr (.inl ⟨rfl, rfl, c, rfl, .inr (.inl ⟨rfl, hc⟩)⟩)))
    · exact .inl ⟨rfl, .inr rfl, by cases h; exact if_pos he⟩
  | sampleq =>
    cases he : s.status.err
    · rw [exec_sampleq he] at h
      cases h
      unfold sampleqBody
      split
      · rename_i c hc; exact .inr (.inr (.inr (.inl ⟨rfl, rfl, c, rfl, .inr (.inr ⟨rfl, .inl hc⟩)⟩)))
      · rename_i r hr
        split
        · rename_i c hc
          exact .inr (.inr (.inr (.inl ⟨rfl, rfl, c, rfl, .inr (.inr ⟨rfl, .inr ⟨r, hr, hc⟩⟩)⟩)))
        · rename_i q hq
          exact .inr (.inr (.inr (.inr (.inr (.inr ⟨rfl, rfl, r, q, hr, hq, rfl⟩)))))
    · exact .inl ⟨rfl, .inr rfl, by cases h; exact if_pos he⟩

/-! ### A whole transaction (R60) -/

/-- Everything a transaction can do. -/
theorem transact_cases {tr : Transaction} {s t : State} (h : transact tr s = .next t) :
    (∃ v i, tr = .write 0x0 v ∧ decode v = .ok i ∧ exec i s = .next t) ∨
    (∃ v, tr = .write 0x0 v ∧ decode v = .error .illegal ∧ t = recordError .illegalCmd s) ∨
    (∃ idx v, tr = .write idx v ∧ idx ≠ 0x0 ∧ t = portStore idx v s) ∨
    (∃ idx, tr = .read idx ∧ t = deliverRead idx s) ∨
    (tr = .reset ∧ t = resetBlock s) := by
  cases tr with
  | write idx v =>
    change portWrite idx v s = _ at h
    unfold portWrite at h
    split at h
    · rename_i h0
      subst h0
      unfold executeCommand at h
      split at h
      · rename_i i hi; exact .inl ⟨v, i, rfl, hi, h⟩
      · rename_i e he; cases e; cases h; exact .inr (.inl ⟨v, rfl, he, rfl⟩)
    · rename_i h0
      cases h
      exact .inr (.inr (.inl ⟨idx, v, rfl, h0, rfl⟩))
  | read idx => cases h; exact .inr (.inr (.inr (.inl ⟨idx, rfl, rfl⟩)))
  | reset => cases h; exact .inr (.inr (.inr (.inr ⟨rfl, rfl⟩)))

theorem step_idle {s : State} (h : s.pending = []) : step s = .next s := by
  unfold step serveHost; rw [h]

theorem step_transact {s : State} {tr : Transaction} {rest : List Transaction} (h : s.pending = tr :: rest) :
    step s = transact tr { s with pending := rest } := by
  unfold step serveHost; rw [h]

/-- What a port store can do (R52). -/
theorem portStore_cases (idx : RegIndex) (v : Word) (s : State) :
    (idx = 0x2 ∧ portStore idx v s = { s with freq := v }) ∨
    (idx = 0x3 ∧ portStore idx v s = { s with vol := v }) ∨
    (idx = 0x4 ∧ portStore idx v s = { s with time := v }) ∨
    (idx = 0x5 ∧ portStore idx v s = { s with mvol := v }) ∨
    (idx = 0x6 ∧ portStore idx v s = { s with ain := v }) ∨
    ((idx ≠ 0x2 ∧ idx ≠ 0x3 ∧ idx ≠ 0x4 ∧ idx ≠ 0x5 ∧ idx ≠ 0x6) ∧
      portStore idx v s = recordError .badAccess s) := by
  have ne : ∀ k : RegIndex, ¬ idx.toNat = k.toNat → idx ≠ k := fun k h he => h (congrArg _ he)
  have eq : ∀ k : RegIndex, idx.toNat = k.toNat → idx = k := fun k h => BitVec.eq_of_toNat_eq h
  unfold portStore
  split
  · rename_i h; exact .inl ⟨eq 2 h, rfl⟩
  · rename_i h; exact .inr (.inl ⟨eq 3 h, rfl⟩)
  · rename_i h; exact .inr (.inr (.inl ⟨eq 4 h, rfl⟩))
  · rename_i h; exact .inr (.inr (.inr (.inl ⟨eq 5 h, rfl⟩)))
  · rename_i h; exact .inr (.inr (.inr (.inr (.inl ⟨eq 6 h, rfl⟩))))
  · rename_i h2 h3 h4 h5 h6
    exact .inr (.inr (.inr (.inr (.inr ⟨⟨ne 2 h2, ne 3 h3, ne 4 h4, ne 5 h5, ne 6 h6⟩, rfl⟩))))

end Sys2Proof.Machine
end

