-- ==== Sys2Proof/Laws/PerInstr.lean ====
section
/-! SUPPORT. The family EncodedFields: a command's word carries exactly its fields (R71, R73), and they are legal (R77). -/

namespace Sys2Proof.Laws.EncodedFields

/-- The word of the command splits into the command's own fields, and they pass every check. -/
def Statement (i : Instr) : Prop := fieldsOfWord (encode i) = i.fields ∧ (fieldsOfWord (encode i)).wellFormed = true

theorem nop : Statement .nop := by unfold Statement; decide
theorem initSil : Statement .initSil := by unfold Statement; decide
theorem initSine : Statement .initSine := by unfold Statement; decide
theorem initSqr : Statement .initSqr := by unfold Statement; decide
theorem initNoise : Statement .initNoise := by unfold Statement; decide
theorem initNoiseS : Statement .initNoiseS := by unfold Statement; decide
theorem sample : Statement .sample := by unfold Statement; decide
theorem quant : Statement .quant := by unfold Statement; decide
theorem sampleq : Statement .sampleq := by unfold Statement; decide

end Sys2Proof.Laws.EncodedFields
end

