-- ==== Sys2Proof/Laws/Run.lean ====
section
/-! SUPPORT. Commands and transactions always answer a next state and leave the host's lists to the port; runs of transactions. -/

namespace Sys2Proof.Machine

/-- Every command answers a next state (R220, R259). -/
theorem exec_next (i : Instr) (s : State) : ∃ t, exec i s = .next t := by cases i <;> exact ⟨_, rfl⟩

/-- No command touches the host's side of the port. -/
theorem exec_port {i : Instr} {s t : State} (h : exec i s = .next t) :
    t.pending = s.pending ∧ t.hostReads = s.hostReads := by
  rcases exec_cases h with ⟨-, -, rfl⟩ | ⟨k, m, -, -, -, -, rfl⟩ | ⟨k, m, c, -, -, -, rfl⟩ | ⟨-, -, c, rfl, -⟩ | ⟨-, -, r, -, rfl⟩ |
    ⟨-, -, q, -, rfl⟩ | ⟨-, -, r, q, -, -, rfl⟩ <;> exact ⟨rfl, rfl⟩

theorem portStore_port (idx : RegIndex) (v : Word) (s : State) :
    (portStore idx v s).pending = s.pending ∧ (portStore idx v s).hostReads = s.hostReads := by
  rcases portStore_cases idx v s with ⟨-, h⟩ | ⟨-, h⟩ | ⟨-, h⟩ | ⟨-, h⟩ | ⟨-, h⟩ | ⟨-, h⟩ <;> rw [h] <;> exact ⟨rfl, rfl⟩

/-- Every transaction completes, and leaves the transactions after it as they are. -/
theorem transact_next (tr : Transaction) (s : State) : ∃ t, transact tr s = .next t ∧ t.pending = s.pending := by
  cases tr with
  | write idx v =>
    change ∃ t, portWrite idx v s = _ ∧ _
    unfold portWrite
    split
    · unfold executeCommand
      split
      · obtain ⟨t, ht⟩ := exec_next _ s
        exact ⟨t, ht, (exec_port ht).1⟩
      · exact ⟨_, rfl, rfl⟩
    · exact ⟨_, rfl, (portStore_port idx v s).1⟩
  | read idx => exact ⟨_, rfl, rfl⟩
  | reset => exact ⟨_, rfl, rfl⟩

theorem run_zero (s : State) : Sys2Proof.core.run 0 s = .next s := rfl

theorem run_succ {n : Nat} {s t : State} (h : step s = .next t) :
    Sys2Proof.core.run (n + 1) s = Sys2Proof.core.run n t := by
  have e : Sys2Proof.core.step s = .next t := h
  have u := Host.Core.run.eq_2 Sys2Proof.core s n
  rw [e] at u
  exact u

theorem runHost_nil (s : State) : runHost [] s = .next { s with pending := [] } := rfl

/-- A run of transactions is its first transaction and then the run of the others (R60). -/
theorem runHost_cons {tr : Transaction} {ts : List Transaction} {s t : State}
    (h : transact tr { s with pending := ts } = .next t) : runHost (tr :: ts) s = runHost ts t := by
  obtain ⟨t', ht', hp⟩ := transact_next tr { s with pending := ts }
  rw [h] at ht'
  cases ht'
  have hs : step { s with pending := tr :: ts } = .next t := h
  unfold runHost
  rw [List.length_cons, run_succ hs]
  have : t = { t with pending := ts } := by cases t; cases hp; rfl
  rw [← this]

end Sys2Proof.Machine
end

