-- ==== Sys2Proof/Tests/Slice0.lean ====
section
/-! SUPPORT. The model's own tests: ill-formed words that WellFormed refuses, the word of each command, vectors of
spec/95_test_vectors.md (each test names its vector), and for each obligation with hypotheses a state that meets them. -/

namespace Sys2Proof.Tests

open Sys2Proof Sys2Proof.Machine

-- One theorem after another: many kernel evaluations waiting at once need a thread each.
set_option Elab.async false

/-! ### Small states -/

/-- The next state of a command, read back. -/
def stateOf (o : Host.Outcome State Fault Refusal) : Option State :=
  match o with
  | .next s    => some s
  | .fault _   => none
  | .refused _ => none

/-- A block with the given operands, right after reset otherwise. -/
def withOperands (f v : Word) : State := { State.reset with freq := f, vol := v }

/-- A voice with TIME and MVOL set. -/
def voiceState (k : Kind) (m : Mode) (f v t mv : Word) : State :=
  { State.reset with voice := { kind := k, mode := m }, freqL := f, volL := v, time := t, mvol := mv }

/-- The quantizer's operands on a silent voice. -/
def quantState (a mv : Word) : State := { State.reset with ain := a, mvol := mv }

/-- 0.5, 0.25, 1.5, 440.0, 1e300, 1e10, +inf and a NaN. -/
def HALF : Word := 0x3FE0000000000000
def QUARTER : Word := 0x3FD0000000000000
def ONE_HALF : Word := 0x3FF8000000000000
def F440 : Word := 0x407B800000000000
def BIG : Word := 0x7E37E43C8800759C
def INF : Word := 0x7FF0000000000000
def QNAN : Word := 0x7FF8000000000000

/-- The noise voice of R165's example: LFSR 0x0001, PHASE 0.5, TIME 1.0, FREQ_L 0.5. -/
def noiseExample : State := { voiceState .noise .long HALF PZERO ONE QUARTER with phase := HALF }

/-- A state whose render has failed with INVALID_TIME (STATUS 0x0B). -/
def failed : State := State.reset.withErrorCode 5

/-- A square voice at 0.5 Hz. -/
def squareState (t : Word) : State := voiceState .square .long HALF ONE t QUARTER

/-- A sine voice at 440 Hz. -/
def sineState (t : Word) : State := voiceState .sine .long F440 ONE t QUARTER

/-! ### Well-formed words (R71, R77) -/

theorem test_wellFormed_refuses_reserved_op : Fields.wellFormed ⟨0x5, 0, 0, 0⟩ = false := by decide
theorem test_opLegal_refuses : Fields.opLegal ⟨0xF, 0, 0, 0⟩ = false := by decide
theorem test_kindLegal_refuses : Fields.wellFormed ⟨0x2, 1, 0, 0⟩ = false ∧ Fields.kindLegal ⟨0x2, 1, 0, 0⟩ = false := by
  decide
theorem test_modeLegal_refuses : Fields.wellFormed ⟨0x1, 2, 1, 0⟩ = false ∧ Fields.modeLegal ⟨0x1, 2, 1, 0⟩ = false := by
  decide
theorem test_rsvLegal_refuses : Fields.wellFormed ⟨0x0, 0, 0, 1⟩ = false ∧ Fields.rsvLegal ⟨0x0, 0, 0, 1⟩ = false := by
  decide
theorem test_wellFormed_accepts : Fields.wellFormed ⟨0x1, 3, 1, 0⟩ = true := by decide

/-! ### Decoding, words written out from R71 and R73 -/

/-- Bits 3:0 are OP, 5:4 KIND, 6 MODE. -/
theorem test_decode_words :
    decode 0b0000000 = .ok .nop ∧ decode 0b0000001 = .ok .initSil ∧ decode 0b0010001 = .ok .initSine ∧
    decode 0b0100001 = .ok .initSqr ∧ decode 0b0110001 = .ok .initNoise ∧ decode 0b1110001 = .ok .initNoiseS ∧
    decode 0b0000010 = .ok .sample ∧ decode 0b0000011 = .ok .quant ∧ decode 0b0000100 = .ok .sampleq := by decide

/-- R77's examples of illegal words, and the top bit alone set. -/
theorem test_decode_illegal :
    decode 0x5 = .error .illegal ∧ decode 0x12 = .error .illegal ∧ decode 0x61 = .error .illegal ∧
    decode 0x81 = .error .illegal ∧ decode 0x8000000000000002 = .error .illegal := by decide

/-- The host's view of a row: the table word decodes, and is the first command a step runs after reset. -/
theorem test_fetch_word : decodeTableWord 64 0x31 = some .initNoise ∧
    (State.reset.withFetchWord 64 0x31).pending = [cmd .initNoise] := by decide

/-! ### Spec vectors, one command each -/

/-- I20: NOP leaves STATUS 0x0B. -/
theorem test_nop_I20 : (stateOf (exec .nop failed)).map (fun t => t.status.word) = some 0x0B := by decide

/-- I17: INIT.SIL latches a NaN. -/
theorem test_initSil_I17 : (stateOf (exec .initSil (withOperands QNAN PZERO))).map
    (fun t => (t.status.word, t.voice.word, t.freqL, t.lfsr)) = some (0x00, 0x0, QNAN, 0x0001) := by decide +kernel

/-- I1: INIT.SINE. -/
theorem test_initSine_I1 : (stateOf (exec .initSine (withOperands F440 HALF))).map
    (fun t => (t.status.word, t.voice.word, t.freqL, t.volL)) = some (0x00, 0x1, F440, HALF) := by decide +kernel

/-- I3: a negative frequency is refused, the voice unchanged. -/
theorem test_initSine_I3 : (stateOf (exec .initSine (withOperands MINUS_ONE ONE))).map
    (fun t => (t.status.word, t.voice.word, t.freqL)) = some (0x07, 0x0, PZERO) := by decide +kernel

/-- I5: the frequency is checked before the volume. -/
theorem test_initSqr_I5 : (stateOf (exec .initSqr (withOperands QNAN INF))).map (fun t => t.status.word) = some 0x07 := by
  decide +kernel

/-- I9: 1/f overflows. -/
theorem test_initSqr_I9 : (stateOf (exec .initSqr (withOperands 0x1 ONE))).map (fun t => t.status.word) = some 0x07 := by
  decide +kernel

/-- I12: 2f overflows. -/
theorem test_initNoise_I12 : (stateOf (exec .initNoise (withOperands 0x7FEFFFFFFFFFFFFF ONE))).map
    (fun t => t.status.word) = some 0x07 := by decide +kernel

/-- I15: the volume of a noise voice is not checked. -/
theorem test_initNoise_I15 : (stateOf (exec .initNoise (withOperands ONE QNAN))).map
    (fun t => (t.status.word, t.voice.word, t.volL)) = some (0x00, 0x3, QNAN) := by decide +kernel

/-- I16: INIT.NOISE.S. -/
theorem test_initNoiseS_I16 : (stateOf (exec .initNoiseS (withOperands HALF PZERO))).map
    (fun t => (t.status.word, t.voice.word, t.lfsr)) = some (0x00, 0x7, 0x0001) := by decide +kernel

/-- Z3, the example of R165: an edge advances the register. -/
theorem test_sample_Z3 : (stateOf (exec .sample noiseExample)).map
    (fun t => (t.amp, t.lfsr, t.phase, t.status.word)) = some (MINUS_ONE, 0x2000, PZERO, 0x80) := by decide +kernel

/-- S3: the tie maps to the positive side. -/
theorem test_sample_S3 : (stateOf (exec .sample (squareState ONE))).map (fun t => t.amp) = some ONE := by decide +kernel

/-- Q9: the byte is clamped, not the amplitude. -/
theorem test_quant_Q9 : (stateOf (exec .quant (quantState ONE_HALF QUARTER))).map
    (fun t => (t.pcm, t.status.word)) = some (174, 0x20) := by decide +kernel

/-- Q8: below the range. -/
theorem test_quant_Q8 : (stateOf (exec .quant (quantState 0xC000000000000000 ONE))).map
    (fun t => (t.pcm, t.status.word)) = some (0, 0x60) := by decide +kernel

/-- R192's example: TIME = 23/44100 on the square voice of 1000 Hz gives AMP = -1.0 and PCM = 95. -/
theorem test_sampleq_R192 :
    (stateOf (exec .sampleq (voiceState .square .long 0x408F400000000000 ONE 0x3F411702CF42E58D QUARTER))).map
      (fun t => (t.amp, t.pcm)) = some (MINUS_ONE, 95) := by decide +kernel

/-- R192's corner case: INVALID_AMP, with VOL_L = 1e307 and MVOL = 0.0. -/
theorem test_sampleq_invalidAmp :
    (stateOf (exec .sampleq (voiceState .square .long HALF 0x7FAC7B1F3CAC7433 ONE PZERO))).map
      (fun t => (t.status.word, t.amp, t.pcm)) = some (0x11, PZERO, 0) := by decide +kernel

/-- A1, A5, A9: Advance. -/
theorem test_advance : advance 0x0001 .long = 0x2000 ∧ advance 0x4000 .long = 0x0000 ∧ advance 0x0040 .short = 0x2020 := by
  decide

/-! ### The hypotheses of the obligations are met -/

/-- A word that is no command. -/
theorem five_is_illegal : ∀ i, (0x5 : Word) ≠ encode i := by intro i; cases i <;> decide

theorem test_meets_DecodeAndEncodeAgree : decode 0x71 = .ok .initNoiseS := by decide

theorem test_meets_OtherWordsFailWithIllegalCmd :
    (∀ i, (0x5 : Word) ≠ encode i) ∧
    ({ State.reset with pending := [.write 0x0 0x5] } : State).status.err = false ∧
    ({ failed with pending := [.write 0x0 0x5] } : State).status.err = true := ⟨five_is_illegal, by decide, by decide⟩

theorem test_meets_StepRunsTheDecodedCommand :
    (State.reset.withFetchWord 64 0x3).pending = .write 0x0 0x3 :: [] ∧ decode 0x3 = .ok .quant ∧
    Instr.wellFormed .quant = true := by decide

theorem test_meets_EveryTransactionCompletes :
    State.reset.pending = [] ∧ (State.reset.withFetchWord 64 0x3).pending = cmd .quant :: [] := by decide

theorem test_meets_OperandWritesStoreAndTouchNothingElse :
    ({ State.reset with pending := [wr .freq ONE] } : State).pending = .write 0x2 ONE :: [] ∧
    ({ State.reset with pending := [wr .vol ONE] } : State).pending = .write 0x3 ONE :: [] ∧
    ({ State.reset with pending := [wr .time ONE] } : State).pending = .write 0x4 ONE :: [] ∧
    ({ State.reset with pending := [wr .mvol ONE] } : State).pending = .write 0x5 ONE :: [] ∧
    ({ failed with pending := [wr .ain ONE] } : State).pending = .write 0x6 ONE :: [] ∧
    2 ≤ (0x2 : RegIndex).toNat ∧ (0x6 : RegIndex).toNat ≤ 6 := by decide

theorem test_meets_OtherWritesRecordBadAccess :
    ({ State.reset with pending := [.write 0x1 0] } : State).pending = .write 0x1 0 :: [] ∧
    ({ failed with pending := [.write 0xF 0] } : State).pending = .write 0xF 0 :: [] ∧
    7 ≤ (0x7 : RegIndex).toNat ∧ 7 ≤ (0xF : RegIndex).toNat ∧ State.reset.status.err = false ∧
    failed.status.err = true := by decide

/-- One witness for each clause: a refused frequency, a refused volume, and a latched voice of each kind. -/
theorem test_meets_InitLatchesTheVoiceOrFails :
    freqOK .square (F64.ofBits (withOperands PZERO ONE).freq) = false ∧
    (freqOK .sine (F64.ofBits (withOperands PZERO INF).freq) = true ∧
      volOK .sine (F64.ofBits (withOperands PZERO INF).vol) = false) ∧
    (freqOK .silence (F64.ofBits QNAN) = true ∧ volOK .silence (F64.ofBits QNAN) = true) ∧
    (freqOK .sine (F64.ofBits NZERO) = true ∧ volOK .sine (F64.ofBits ONE) = true) ∧
    (freqOK .square (F64.ofBits 0x0004000000000001) = true ∧ volOK .square (F64.ofBits ONE) = true) ∧
    (freqOK .noise (F64.ofBits 0x0002000000000001) = true ∧ volOK .noise (F64.ofBits QNAN) = true) := by decide +kernel

/-- The ends of each range of R99, inside and outside. -/
theorem test_meets_FrequencyRangesOfEachKind :
    freqOK .sine (F64.ofBits 0x7FEFFFFFFFFFFFFF) = true ∧ freqOK .sine (F64.ofBits INF) = false ∧
    freqOK .sine (F64.ofBits 0x8000000000000001) = false ∧
    freqOK .square (F64.ofBits 0x0004000000000000) = false ∧ freqOK .square (F64.ofBits 0x7FEFFFFFFFFFFFFF) = true ∧
    freqOK .noise (F64.ofBits 0x0002000000000000) = false ∧ freqOK .noise (F64.ofBits 0x7FDFFFFFFFFFFFFF) = true ∧
    freqOK .noise (F64.ofBits 0x7FE0000000000000) = false := by decide +kernel

theorem test_meets_LatchedFrequenciesGivePositivePeriods :
    freqOK .square (F64.ofBits 0x0004000000000001) = true ∧ freqOK .square (F64.ofBits 0x7FEFFFFFFFFFFFFF) = true ∧
    freqOK .noise (F64.ofBits 0x0002000000000001) = true ∧ freqOK .noise (F64.ofBits 0x7FDFFFFFFFFFFFFF) = true := by
  decide +kernel

theorem test_meets_InitFrame :
    (∃ t, exec (initCommand .noise .short) (withOperands HALF PZERO) = .next t ∧ t.status.err = false) ∧
    (∃ t, exec (initCommand .square .long) (withOperands PZERO PZERO) = .next t ∧ t.status.err = true) :=
  ⟨⟨_, rfl, by decide +kernel⟩, ⟨_, rfl, by decide +kernel⟩⟩

theorem test_meets_SampleTakesExactlyTheLegalTimes :
    (voiceState .silence .long PZERO PZERO QNAN PZERO).status.err = false ∧
    timeOK (F64.ofBits (voiceState .silence .long PZERO PZERO QNAN PZERO).time) = false ∧
    timeOK (F64.ofBits 0x8000000000000001) = false ∧ timeOK (F64.ofBits NZERO) = true := by decide +kernel

theorem test_meets_SilenceSamplesZero :
    State.reset.status.err = false ∧ timeOK (F64.ofBits State.reset.time) = true ∧ State.reset.voice.kind = .silence := by
  decide +kernel

/-- One witness for each clause: a finite argument, and t × 2π × f overflowing (N15). -/
theorem test_meets_SineSamplesTheFormula :
    ((sineState ONE).status.err = false ∧ timeOK (F64.ofBits (sineState ONE).time) = true ∧
      (sineState ONE).voice.kind = .sine ∧
      isFinite (mul64 (mul64 (F64.ofBits (sineState ONE).time) f64TwoPi) (F64.ofBits (sineState ONE).freqL)) = true) ∧
    (timeOK (F64.ofBits (voiceState .sine .long BIG ONE BIG PZERO).time) = true ∧
      isFinite (mul64 (mul64 (F64.ofBits (voiceState .sine .long BIG ONE BIG PZERO).time) f64TwoPi)
        (F64.ofBits (voiceState .sine .long BIG ONE BIG PZERO).freqL)) = false) := by decide +kernel

theorem square_inv : (squareState ONE).Inv := by constructor <;> decide +kernel
theorem square_later_inv : (squareState ONE_HALF).Inv := by constructor <;> decide +kernel
theorem sine_one_inv : (sineState ONE).Inv := by constructor <;> decide +kernel
/-- The invariant does not read TIME. -/
theorem sine_inv (t : Word) : (sineState t).Inv :=
  ⟨sine_one_inv.1, sine_one_inv.2, sine_one_inv.3, sine_one_inv.4, sine_one_inv.5, sine_one_inv.6, sine_one_inv.7,
    sine_one_inv.8, sine_one_inv.9, sine_one_inv.10⟩
theorem noise_inv : noiseExample.Inv := by constructor <;> decide +kernel

/-- Both halves: the tie at half a period, and 1.5 s beyond it. -/
theorem test_meets_SquareSamplesItsTwoHalves :
    (squareState ONE).Inv ∧ (squareState ONE_HALF).Inv ∧ (squareState ONE).status.err = false ∧
    timeOK (F64.ofBits (squareState ONE).time) = true ∧ timeOK (F64.ofBits (squareState ONE_HALF).time) = true ∧
    (squareState ONE).voice.kind = .square ∧
    (let period := div64 f64One (F64.ofBits (squareState ONE).freqL)
     le64 (fmod64 (F64.ofBits (squareState ONE).time) period) (div64 period f64Two) = true ∧
     le64 (fmod64 (F64.ofBits (squareState ONE_HALF).time) period) (div64 period f64Two) = false) :=
  ⟨square_inv, square_later_inv, by decide +kernel⟩

theorem test_meets_NoiseSamplesTheShiftRegister :
    noiseExample.status.err = false ∧ timeOK (F64.ofBits noiseExample.time) = true ∧
    noiseExample.voice.kind = .noise := by decide +kernel

/-- A sample that completes, on a noise and on another voice, and one that fails. -/
theorem test_meets_SampleFrame :
    (∃ t, exec .sample noiseExample = .next t ∧ t.status.err = false) ∧
    (∃ t, exec .sample (squareState ONE) = .next t ∧ t.status.err = false ∧ (squareState ONE).voice.kind ≠ .noise) ∧
    (∃ t, exec .sample (squareState QNAN) = .next t ∧ t.status.err = true) :=
  ⟨⟨_, rfl, by decide +kernel⟩, ⟨_, rfl, by decide +kernel⟩, ⟨_, rfl, by decide +kernel⟩⟩

theorem test_meets_StatelessVoicesDoNotRememberSamples :
    (squareState ONE).voice.kind ≠ .noise ∧ (squareState ONE).status.err = false ∧
    ∃ t, exec .sample (squareState ONE) = .next t ∧ t.status.err = false ∧
      ∃ u, exec .sample { squareState ONE with time := ONE_HALF } = .next u ∧ u.status.err = false :=
  ⟨by decide +kernel, by decide +kernel, _, rfl, by decide +kernel, _, rfl, by decide +kernel⟩

/-- A state of the invariant for each kind of voice, its volume of magnitude at most 1. -/
theorem test_meets_AmplitudesAreFiniteAndBounded :
    ((squareState ONE).Inv ∧ ∃ t, exec .sample (squareState ONE) = .next t ∧ t.status.err = false) ∧
    ((sineState ONE).Inv ∧ ∃ t, exec .sample (sineState ONE) = .next t ∧ t.status.err = false) ∧
    (noiseExample.Inv ∧ ∃ t, exec .sample noiseExample = .next t ∧ t.status.err = false) ∧
    |(F64.ofBits (voiceState .sine .long F440 PZERO ONE PZERO).volL).toRat| ≤ 1 := by
  refine ⟨⟨square_inv, _, rfl, by decide +kernel⟩, ⟨sine_inv ONE, _, rfl, ?_⟩, ⟨noise_inv, _, rfl, by decide +kernel⟩, ?_⟩
  · have ha : isFinite (sineArg (timeOperand (sineState ONE)) (freqLOperand (sineState ONE))) = true := by decide +kernel
    have ht : timeOK (timeOperand (sineState ONE)) = true := by decide +kernel
    unfold unlessError sampleBody sampleVoice sineAmp
    rw [if_pos ht, if_pos ha]
    rfl
  · have h : F64.ofBits (voiceState .sine .long F440 PZERO ONE PZERO).volL = .fin false 0 := by decide +kernel
    rw [h]; norm_num [F64.toRat]

theorem test_meets_SineIsWithinTheUnitInterval : isFinite (F64.ofBits F440) = true := by decide +kernel

/-- The largest finite binary64 (R12's layout): its product with 2π overflows. -/
def MAX : Word := 0x7FEFFFFFFFFFFFFF

/-- Witnesses for each clause: both zero times, both zero frequencies at a time whose first product is finite and at one
whose product is not, and a zero volume. -/
theorem test_meets_SineCornerCases :
    ((sineState PZERO).Inv ∧ (sineState NZERO).Inv ∧ isZeroWord PZERO = true ∧ isZeroWord NZERO = true) ∧
    ((voiceState .sine .long PZERO ONE NZERO PZERO).Inv ∧ (voiceState .sine .long NZERO ONE ONE PZERO).Inv ∧
      timeOK (F64.ofBits NZERO) = true ∧ isFinite (mul64 (F64.ofBits NZERO) f64TwoPi) = true ∧
      timeOK (F64.ofBits ONE) = true ∧ isFinite (mul64 (F64.ofBits ONE) f64TwoPi) = true) ∧
    ((voiceState .sine .long PZERO ONE MAX PZERO).Inv ∧ timeOK (F64.ofBits MAX) = true ∧
      isFinite (mul64 (F64.ofBits MAX) f64TwoPi) = false) ∧
    ((voiceState .sine .long F440 NZERO PZERO PZERO).Inv ∧ ∃ t,
      exec .sample (voiceState .sine .long F440 NZERO PZERO PZERO) = .next t ∧ t.status.err = false) := by
  refine ⟨⟨sine_inv _, sine_inv _, by decide⟩, ⟨?_, ?_, by decide +kernel⟩, ⟨?_, by decide +kernel⟩, ⟨?_, _, rfl, ?_⟩⟩
  case refine_5 => decide +kernel
  all_goals constructor <;> decide +kernel

theorem test_meets_RegisterNeverBecomesZero :
    (0x2000 : Lfsr).getLsbD 14 = false ∧ (0x2000 : Lfsr) ≠ 0 ∧ noiseExample.lfsr.getLsbD 14 = false ∧
    noiseExample.lfsr ≠ 0 ∧ ∃ t, step noiseExample = .next t := ⟨by decide, by decide, by decide, by decide, _, rfl⟩

theorem test_meets_NoiseAdvancesExactlyOnAPhaseWrap :
    noiseExample.Inv ∧ noiseExample.voice.kind = .noise ∧ noiseExample.status.err = false ∧
    ∃ t, exec .sample noiseExample = .next t ∧ t.status.err = false ∧ t.lfsr ≠ noiseExample.lfsr :=
  ⟨noise_inv, by decide, by decide, _, rfl, by decide +kernel⟩

theorem test_meets_FirstNoiseSampleNeverAdvances :
    ∃ t, exec (initCommand .noise .long) (withOperands HALF PZERO) = .next t ∧ t.status.err = false ∧
      timeOK (F64.ofBits ONE_HALF) = true := ⟨_, rfl, by decide +kernel⟩

theorem test_meets_NoiseIgnoresItsVolume :
    noiseExample.voice.kind = .noise ∧ (∃ t, exec .sample noiseExample = .next t) ∧
    (∃ t, exec .sampleq noiseExample = .next t) := ⟨by decide, ⟨_, rfl⟩, ⟨_, rfl⟩⟩

/-- One witness for each clause: MVOL infinite, a NaN amplitude, and a byte. -/
theorem test_meets_QuantWritesTheClampedFloor :
    (quantState ONE INF).status.err = false ∧ isFinite (F64.ofBits (quantState ONE INF).mvol) = false ∧
    (isFinite (F64.ofBits ONE) = true ∧
      isNaN (add64 (mul64 (mul64 (F64.ofBits QNAN) f64Num127) (F64.ofBits ONE)) f64Num127) = true) ∧
    isNaN (add64 (mul64 (mul64 (F64.ofBits INF) f64Num127) (F64.ofBits ONE)) f64Num127) = false := by
  refine ⟨by decide, by decide +kernel, ⟨by decide +kernel, ?_⟩, by decide +kernel⟩
  have h : F64.ofBits QNAN = .nan QNAN := by decide +kernel
  have h1 : F64.ofBits ONE = .fin false unitsOfOne := by decide +kernel
  have h2 : f64Num127 = .fin false (127 * unitsOfOne) := by decide +kernel
  rw [h, h1, h2]; rfl

theorem test_meets_QuantValueIsNaNExactlyWhen :
    isFinite (F64.ofBits PZERO) = true ∧ isZeroWord PZERO = true ∧
    isFinite (mul64 (F64.ofBits INF) f64Num127) = false := by decide +kernel

/-- -63.5 floors to -64 and truncates to -63. -/
theorem test_meets_FloorAndTruncationGiveTheSameByte :
    floorZ (F64.ofBits 0xC04FC00000000000) = some (.int (-64)) ∧ truncZ (F64.ofBits 0xC04FC00000000000) = some (.int (-63)) := by
  decide +kernel

/-- The corner of the contract: amplitude -1.0 and master volume 1.0. -/
theorem test_meets_InContractInputsStayInRange :
    (quantState MINUS_ONE ONE).status.err = false ∧ le64 f64MinusOne (F64.ofBits MINUS_ONE) = true ∧
    le64 (F64.ofBits MINUS_ONE) f64One = true ∧ le64 f64Zero (F64.ofBits ONE) = true ∧
    le64 (F64.ofBits ONE) f64One = true := by decide +kernel

/-- A zero amplitude in AIN, a silent voice, and a square and a sine voice of volume zero. -/
theorem test_meets_ZeroAmplitudeIsTheMidpoint :
    isFinite (F64.ofBits (quantState NZERO ONE).mvol) = true ∧ isZeroWord (quantState NZERO ONE).ain = true ∧
    ((voiceState .silence .long QNAN QNAN ONE ONE).Inv ∧ timeOK (F64.ofBits ONE) = true) ∧
    ((voiceState .square .long HALF PZERO ONE ONE).Inv ∧ isZeroWord PZERO = true) ∧
    ((voiceState .sine .long HALF NZERO ONE ONE).Inv ∧
      isFinite (mul64 (mul64 (F64.ofBits ONE) f64TwoPi) (F64.ofBits HALF)) = true) := by
  refine ⟨by decide +kernel, by decide, ⟨?_, by decide +kernel⟩, ⟨?_, by decide⟩, ⟨?_, by decide +kernel⟩⟩ <;>
    constructor <;> decide +kernel

theorem test_meets_QuantFrame :
    (∃ t, exec .quant (quantState ONE ONE) = .next t ∧ t.status.err = false) ∧
    (∃ t, exec .quant (quantState ONE INF) = .next t ∧ t.status.err = true) :=
  ⟨⟨_, rfl, by decide +kernel⟩, ⟨_, rfl, by decide +kernel⟩⟩

/-- On a square voice the value is no NaN; a sine voice meets the argument's condition. -/
theorem test_meets_SampleqCompletesBothHalves :
    (squareState ONE).status.err = false ∧ timeOK (F64.ofBits (squareState ONE).time) = true ∧
    (squareState ONE).voice.kind ≠ .sine ∧ isFinite (F64.ofBits (squareState ONE).mvol) = true ∧
    isFinite (mul64 (mul64 (F64.ofBits (sineState ONE).time) f64TwoPi) (F64.ofBits (sineState ONE).freqL)) = true ∧
    isNaN (add64 (mul64 (mul64 (F64.ofBits ONE) f64Num127) (F64.ofBits QUARTER)) f64Num127) = false := by decide +kernel

theorem test_meets_SampleqEqualsSampleThenQuant :
    (squareState ONE).status.err = false ∧
    ∃ t, exec .sampleq (squareState ONE) = .next t ∧ t.status.err = false := ⟨by decide, _, rfl, by decide +kernel⟩

theorem test_meets_SampleqFrame :
    (∃ t, exec .sampleq noiseExample = .next t ∧ t.status.err = false) ∧
    (∃ t, exec .sampleq { noiseExample with mvol := INF } = .next t ∧ t.status.err = true) :=
  ⟨⟨_, rfl, by decide +kernel⟩, ⟨_, rfl, by decide +kernel⟩⟩

/-- One witness for each clause of R223's order that no other theorem here gives. -/
theorem test_meets_FirstFailingCheckIsRecorded :
    (∀ i, (0x5 : Word) ≠ encode i) ∧ failed.status.err = true ∧
    freqOK .square (F64.ofBits (withOperands PZERO INF).freq) = false ∧
    (freqOK .square (F64.ofBits ONE) = true ∧ volOK .square (F64.ofBits QNAN) = false) ∧
    timeOK (F64.ofBits (squareState QNAN).time) = false ∧
    (timeOK (F64.ofBits BIG) = true ∧ isFinite (mul64 (mul64 (F64.ofBits BIG) f64TwoPi) (F64.ofBits BIG)) = false) ∧
    isFinite (F64.ofBits INF) = false ∧
    (∃ u, exec .sample (voiceState .square .long HALF 0x7FAC7B1F3CAC7433 ONE PZERO) = .next u ∧
      isNaN (add64 (mul64 (mul64 (F64.ofBits u.amp) f64Num127) (F64.ofBits PZERO)) f64Num127) = true) := by
  refine ⟨five_is_illegal, by decide, by decide +kernel, by decide +kernel, by decide +kernel, by decide +kernel,
    by decide +kernel, _, rfl, ?_⟩
  have h : mul64 (F64.ofBits 0x7FAC7B1F3CAC7433) f64Num127 = .inf false := by decide +kernel
  have h0 : F64.ofBits PZERO = .fin false 0 := by decide +kernel
  have h2 : f64Num127 = .fin false (127 * unitsOfOne) := by decide +kernel
  have ha : (unlessError (voiceState .square .long HALF 0x7FAC7B1F3CAC7433 ONE PZERO)
      (sampleBody (voiceState .square .long HALF 0x7FAC7B1F3CAC7433 ONE PZERO))).amp = 0x7FAC7B1F3CAC7433 := by
    decide +kernel
  rw [ha, h, h0, h2]; rfl

/-- A failing SAMPLE, and a failing INIT. -/
theorem test_meets_FailingCommandsWriteOnlyStatus :
    (∃ t, exec .sample (squareState QNAN) = .next t ∧ t.status.err = true ∧ isInit .sample = false) ∧
    (∃ t, exec .initSqr (withOperands PZERO ONE) = .next t ∧ t.status.err = true) :=
  ⟨⟨_, rfl, by decide +kernel⟩, ⟨_, rfl, by decide +kernel⟩⟩

theorem test_meets_ErrorBlocksAllButInit :
    failed.status.err = true ∧ (∀ i, (0x5 : Word) ≠ encode i) ∧
    freqOK .sine (F64.ofBits failed.freq) = true ∧ volOK .sine (F64.ofBits failed.vol) = true :=
  ⟨by decide, five_is_illegal, by decide +kernel⟩

theorem test_meets_FirstErrorStaysUntilInitOrReset :
    failed.status.err = true ∧
    ∀ tr ∈ [cmd .sampleq, .write 0x0 0x5, wr .status 0, wr .freq ONE, rd .pcm], startsAfresh tr = false := by decide

/-- Q9 sets AWARN and no error. -/
theorem test_meets_WarningsStayUntilInitOrReset :
    (∀ tr ∈ [cmd .quant, cmd .sampleq, rd .status], startsAfresh tr = false) ∧
    ∃ t, step { quantState ONE_HALF QUARTER with pending := [cmd .quant] } = .next t ∧
      (quantState ONE_HALF QUARTER).status.awarn = false ∧ t.status.awarn = true :=
  ⟨by decide, _, rfl, by decide, by decide +kernel⟩

/-- An INIT and a noise sample that change the noise state. -/
theorem test_meets_OnlyInitNoiseAndResetWriteTheNoiseState :
    (∃ t, step { noiseExample with pending := [cmd .sample] } = .next t ∧ t.lfsr ≠ noiseExample.lfsr) ∧
    (∃ t, step { noiseExample with pending := [cmd .initSil] } = .next t ∧ t.phase ≠ noiseExample.phase) :=
  ⟨⟨_, rfl, by decide +kernel⟩, ⟨_, rfl, by decide +kernel⟩⟩

theorem test_meets_OnlyInitAndResetWriteTheVoice :
    (∃ t, step { noiseExample with pending := [cmd .initSil] } = .next t ∧ t.voice ≠ noiseExample.voice) ∧
    (∃ t, step { noiseExample with pending := [rst] } = .next t ∧ t.freqL ≠ noiseExample.freqL) :=
  ⟨⟨_, rfl, by decide +kernel⟩, ⟨_, rfl, by decide +kernel⟩⟩

theorem test_meets_FreqAndVolReachOnlyInit :
    ∀ tr ∈ [wr .freq ONE, wr .time ONE, cmd .sampleq, rd .pcm, rst],
      isInitWrite tr = false ∧ readsFreqOrVol tr = false := by decide

theorem test_meets_EveryStepKeepsTheInvariant :
    noiseExample.Inv ∧ ∃ t, step { noiseExample with pending := [cmd .sampleq] } = .next t := ⟨noise_inv, _, rfl⟩

/-- Finite operands, a nonzero divisor, and a quotient beyond the overflow bound. -/
theorem test_meets_PrimitivesRoundOnce :
    isFinite (F64.ofBits ONE) = true ∧ isFinite (F64.ofBits 0x1) = true ∧
    (F64.ofBits ONE).toRat ≠ 0 ∧ div64 (F64.ofBits ONE) (F64.ofBits 0x1) = .inf false ∧
    mul64 (F64.ofBits HALF) (F64.ofBits ONE) = F64.ofBits HALF := by
  refine ⟨by decide +kernel, by decide +kernel, ?_, by decide +kernel, by decide +kernel⟩
  have h : F64.ofBits ONE = .fin false unitsOfOne := by decide +kernel
  rw [h]
  refine div_ne_zero ?_ (by positivity)
  rw [signedMag_false]
  exact_mod_cast unitsOfOne_pos.ne'

theorem test_meets_RemainderIsExact :
    isFinite (F64.ofBits ONE_HALF) = true ∧ isFinite (F64.ofBits ONE) = true ∧ (F64.ofBits ONE).toRat ≠ 0 ∧
    fmod64 (F64.ofBits ONE_HALF) (F64.ofBits ONE) = F64.ofBits HALF :=
  ⟨by decide +kernel, test_meets_PrimitivesRoundOnce.1, test_meets_PrimitivesRoundOnce.2.2.1, by decide +kernel⟩

theorem test_meets_FloorAndClampAreExact :
    isFinite (F64.ofBits 0xC04FC00000000000) = true ∧ (0 : Int) ≤ 255 ∧ ExtInt.negInf.below 0 = true ∧
    (ExtInt.int 256).above 255 = true := by decide +kernel

theorem test_meets_ComparisonsFollowTheValues :
    isFinite (F64.ofBits NZERO) = true ∧ isFinite (F64.ofBits PZERO) = true ∧
    lt64 (F64.ofBits NZERO) (F64.ofBits PZERO) = false ∧ le64 (F64.ofBits PZERO) (F64.ofBits NZERO) = true := by
  decide +kernel

theorem test_meets_SampleCountIsTheFloor :
    isFinite (mul64 (F64.ofBits ONE) (F64.ofBits PZERO)) = true ∧
    0 ≤ (mul64 (F64.ofBits ONE) (F64.ofBits PZERO)).toRat := by
  have h : mul64 (F64.ofBits ONE) (F64.ofBits PZERO) = .fin false 0 := by decide +kernel
  rw [h]; norm_num [F64.toRat]

end Sys2Proof.Tests
end

/-! PROOFS. The statements about the numeric primitives (00_scope.md): the rational value of a binary64, the rounding core
over the rationals, and the obligations O27 and O55 to O59. -/

namespace Sys2Proof.Machine

/-! ### Signed magnitudes -/

theorem signedMag_mul (s t : Bool) (m n : Nat) : signedMag (s ^^ t) (m * n) = signedMag s m * signedMag t n := by
  cases s <;> cases t <;> simp

@[simp] theorem abs_signedMag (s : Bool) (m : Nat) : |signedMag s m| = m := by
  cases s <;> simp

@[simp] theorem signedMag_eq_zero {s : Bool} {m : Nat} : signedMag s m = 0 ↔ m = 0 := by
  cases s <;> simp

theorem signedMag_neg_natAbs (z : Int) : signedMag (decide (z < 0)) z.natAbs = z := by
  by_cases h : z < 0
  · rw [decide_eq_true h, signedMag_true]; omega
  · rw [decide_eq_false h, signedMag_false]; omega

theorem signedMag_xor_eq_iff {s t : Bool} {m n : Nat} :
    signedMag (s ^^ t) m = n ↔ signedMag t m = signedMag s n := by
  cases s
  · simp
  · cases t <;> simp

/-- A nonzero magnitude carries its sign. -/
theorem signedMag_neg_iff {s : Bool} {m : Nat} (hm : m ≠ 0) : signedMag s m < 0 ↔ s = true := by
  cases s
  · simp
  · simpa using Nat.pos_of_ne_zero hm

/-- The remainder of magnitudes is the remainder of signed values by truncated division (R10). -/
theorem signedMag_mod (s t : Bool) (m n : Nat) :
    signedMag s (m % n) = signedMag s m - signedMag t n * signedMag (s ^^ t) (m / n) := by
  have h : n * (m / n) + m % n = m := Nat.div_add_mod m n
  have hq : signedMag t n * signedMag (s ^^ t) (m / n) = signedMag s (n * (m / n)) := by
    rw [← signedMag_mul]; cases s <;> cases t <;> rfl
  rw [hq]
  cases s
  · simp only [signedMag_false]; omega
  · simp only [signedMag_true]; omega

/-! ### The rational value of a binary64 (R9) -/

theorem toRat_fin (s : Bool) (m : Nat) : (F64.fin s m).toRat = (signedMag s m : ℚ) / 2 ^ 1074 := rfl

theorem unit_pos : (0 : ℚ) < 2 ^ 1074 := by positivity

theorem unitsOfOne_cast : (unitsOfOne : ℚ) = 2 ^ 1074 := by
  unfold unitsOfOne; exact Nat.cast_pow 2 1074

@[simp] theorem toRat_fin_eq_zero {s : Bool} {m : Nat} : (F64.fin s m).toRat = 0 ↔ m = 0 := by
  rw [toRat_fin, div_eq_zero_iff, or_iff_left unit_pos.ne', Int.cast_eq_zero, signedMag_eq_zero]

theorem abs_toRat_fin (s : Bool) (m : Nat) : |(F64.fin s m).toRat| = (m : ℚ) / 2 ^ 1074 := by
  rw [toRat_fin, abs_div, abs_of_pos unit_pos, ← Int.cast_abs, abs_signedMag, Int.cast_natCast]

theorem toRat_fin_lt {s t : Bool} {m n : Nat} :
    (F64.fin s m).toRat < (F64.fin t n).toRat ↔ signedMag s m < signedMag t n := by
  rw [toRat_fin, toRat_fin, div_lt_div_iff_of_pos_right unit_pos, Int.cast_lt]

theorem toRat_fin_le {s t : Bool} {m n : Nat} :
    (F64.fin s m).toRat ≤ (F64.fin t n).toRat ↔ signedMag s m ≤ signedMag t n := by
  rw [toRat_fin, toRat_fin, div_le_div_iff_of_pos_right unit_pos, Int.cast_le]

/-! ### Reading a register and writing it back (R9) -/

/-- A finite register's value, with its code below infinity's. -/
theorem ofBits_finite {x : Word} (h : isFinite (F64.ofBits x) = true) :
    ∃ s c, c < infCode ∧ F64.ofBits x = .fin s (magOfCode c) :=
  have hc := (ofBits_finite_iff x).1 h
  ⟨_, _, hc, ofBits_of_finite hc⟩

@[simp] theorem toBits_ofBits (x : Word) : (F64.ofBits x).toBits = x := by
  rcases Nat.lt_trichotomy (x.toNat % 2 ^ 63) infCode with hfin | hinf | hnan
  · rw [ofBits_of_finite hfin, toBits_fin, roundCode_magOfCode, withSign_of_word]
  · unfold F64.ofBits
    rw [if_neg (by omega), valueOfCode_infinite (by omega), toBits_inf, ← hinf, withSign_of_word]
  · unfold F64.ofBits
    rw [if_pos hnan, toBits_nan]

theorem ofBits_injective : Function.Injective F64.ofBits :=
  Function.LeftInverse.injective toBits_ofBits

/-- The last bit of a signed code is the code's. -/
theorem withSign_even {neg : Bool} {c : Nat} (hc : c < 2 ^ 63) (he : c % 2 = 0) :
    (withSign neg c).getLsbD 0 = false := by
  rw [BitVec.getLsbD, withSign_toNat hc, Nat.testBit_zero, decide_eq_false_iff_not]
  split <;> omega

/-! ### Rounding on the integers -/

/-- The rounded magnitude is at least as near to n / d as any other on the grid, with ties to even. -/
theorem roundCode_nearest_mag {n d : Nat} (hd : 0 < d) (c : Nat) :
    |(n : Int) - d * magOfCode (roundCode n d)| ≤ |(n : Int) - d * magOfCode c| ∧
    (|(n : Int) - d * magOfCode (roundCode n d)| = |(n : Int) - d * magOfCode c| →
      c ≠ roundCode n d → roundCode n d % 2 = 0) := by
  rcases Nat.lt_trichotomy (roundCode n d) c with hlt | heq | hgt
  · obtain ⟨hnear, htie⟩ := roundCode_above hd hlt
    have hmag := (Nat.mul_lt_mul_left hd).2 (magOfCode_strictMono hlt)
    simp only [← Int.natCast_mul, Int.abs_eq_natAbs]
    exact ⟨by omega, fun h _ => htie (by omega)⟩
  · exact ⟨by rw [heq], fun _ hne => absurd heq.symm hne⟩
  · obtain ⟨hnear, htie⟩ := roundCode_below hd hgt
    have hmag := (Nat.mul_lt_mul_left hd).2 (magOfCode_strictMono hgt)
    simp only [← Int.natCast_mul, Int.abs_eq_natAbs]
    exact ⟨by omega, fun h _ => htie (by omega)⟩

/-- The same against grid points of either sign: one of the other sign is no nearer than zero. -/
theorem roundCode_nearest {n d : Nat} (hd : 0 < d) (t : Bool) (c : Nat) :
    |(n : Int) - d * magOfCode (roundCode n d)| ≤ |(n : Int) - d * signedMag t (magOfCode c)| ∧
    (|(n : Int) - d * magOfCode (roundCode n d)| = |(n : Int) - d * signedMag t (magOfCode c)| →
      signedMag t (magOfCode c) ≠ magOfCode (roundCode n d) → roundCode n d % 2 = 0) := by
  cases t with
  | false =>
    obtain ⟨hnear, htie⟩ := roundCode_nearest_mag (n := n) hd c
    exact ⟨hnear, fun h hne => htie h fun hc => hne (by rw [hc, signedMag_false])⟩
  | true =>
    obtain ⟨hnear, htie⟩ := roundCode_nearest_mag (n := n) hd 0
    rw [magOfCode_zero, Int.natCast_zero, mul_zero, sub_zero, abs_of_nonneg (Int.natCast_nonneg n)] at hnear htie
    have hopp : |(n : Int) - d * signedMag true (magOfCode c)| = n + (d * magOfCode c : Nat) := by
      rw [signedMag_true, mul_neg, sub_neg_eq_add, ← Int.natCast_mul]
      exact abs_of_nonneg (by omega)
    rw [hopp]
    refine ⟨by omega, fun h _ => ?_⟩
    by_cases hR : roundCode n d = 0
    · rw [hR]
    · exact htie (by omega) (Ne.symm hR)

/-- The largest finite magnitude plus half its last place, in units of 2^-1074. -/
def overflowUnits : Nat := (2 ^ 54 - 1) * 2 ^ 2044

theorem magOfCode_around_infCode : magOfCode (infCode - 1) + magOfCode infCode = 2 * overflowUnits := by
  decide +kernel

/-- Rounding stays finite exactly below the overflow bound: the bound itself ties to infinity's even code. -/
theorem roundCode_lt_infCode_iff {n d : Nat} (hd : 0 < d) :
    roundCode n d < infCode ↔ n < d * overflowUnits := by
  have hsum : d * magOfCode (infCode - 1) + d * magOfCode infCode = 2 * (d * overflowUnits) := by
    rw [← Nat.mul_add, magOfCode_around_infCode]; ring
  have hodd : (infCode - 1) % 2 = 1 := by decide
  have hpos : 0 < infCode := by decide
  constructor
  · intro h
    rcases Nat.lt_or_ge (roundCode n d) (infCode - 1) with hlt | hge
    · have hnear := (roundCode_above hd hlt).1
      have h1 := (Nat.mul_lt_mul_left hd).2 (magOfCode_strictMono hlt)
      have h2 : d * magOfCode (infCode - 1) < d * magOfCode infCode :=
        (Nat.mul_lt_mul_left hd).2 (magOfCode_strictMono (by omega))
      omega
    · have heq : roundCode n d = infCode - 1 := by omega
      obtain ⟨hnear, htie⟩ := roundCode_above hd h
      rw [heq, hsum] at hnear htie
      have : 2 * n ≠ 2 * (d * overflowUnits) := fun he => by have := htie he; omega
      omega
  · intro h
    by_contra hge
    have hlt : infCode - 1 < roundCode n d := by omega
    have hnear := (roundCode_below hd hlt).1
    have hmono : d * magOfCode infCode ≤ d * magOfCode (roundCode n d) :=
      Nat.mul_le_mul_left d (magOfCode_strictMono.monotone (by omega))
    omega

/-! ### Rounding over the rationals -/

theorem overflowBound_eq : overflowBound = (overflowUnits : ℚ) / 2 ^ 1074 := by
  have hunits : (2 : ℚ) ^ 2044 = 2 ^ 970 * 2 ^ 1074 := by rw [← pow_add]
  have hbound : (2 : ℚ) ^ 1024 = 2 ^ 54 * 2 ^ 970 := by rw [← pow_add]
  have hsig : ((2 ^ 54 - 1 : Nat) : ℚ) = 2 ^ 54 - 1 := by norm_num
  rw [eq_div_iff unit_pos.ne', overflowBound, overflowUnits, Nat.cast_mul, Nat.cast_pow, Nat.cast_ofNat, hunits, hbound,
    hsig, ← sub_one_mul, mul_assoc]

/-- The rational n / d units with a sign, what `roundTo neg n d` rounds. -/
def exactQuotient (neg : Bool) (n d : Nat) : ℚ := (signedMag neg n : ℚ) / d / 2 ^ 1074

theorem exactQuotient_one (neg : Bool) (n : Nat) : exactQuotient neg n 1 = (F64.fin neg n).toRat := by
  rw [exactQuotient, Nat.cast_one, div_one, toRat_fin]

theorem abs_exactQuotient (neg : Bool) (n d : Nat) : |exactQuotient neg n d| = (n : ℚ) / d / 2 ^ 1074 := by
  rw [exactQuotient, abs_div, abs_div, abs_of_pos unit_pos, Nat.abs_cast, ← Int.cast_abs, abs_signedMag,
    Int.cast_natCast]

/-- The distance from a quotient to a finite value, over the quotient's denominator, seen from the quotient's sign. -/
theorem abs_exactQuotient_sub {d : Nat} (hd : 0 < d) (neg t : Bool) (n m : Nat) :
    |exactQuotient neg n d - (F64.fin t m).toRat| =
      ((|(n : Int) - d * signedMag (neg ^^ t) m| : Int) : ℚ) / (d * 2 ^ 1074) := by
  have hd' : (0 : ℚ) < d := Nat.cast_pos.2 hd
  have hden : (0 : ℚ) < d * 2 ^ 1074 := mul_pos hd' unit_pos
  have hdiff : exactQuotient neg n d - (F64.fin t m).toRat =
      ((signedMag neg n - d * signedMag t m : Int) : ℚ) / (d * 2 ^ 1074) := by
    rw [exactQuotient, toRat_fin, div_div, Int.cast_sub, Int.cast_mul, Int.cast_natCast, sub_div,
      mul_div_mul_left _ _ hd'.ne']
  have hsign : |signedMag neg n - d * signedMag t m| = |(n : Int) - d * signedMag (neg ^^ t) m| := by
    cases neg
    · rw [signedMag_false, Bool.false_xor]
    · rw [← abs_neg]
      congr 1
      cases t <;> simp <;> ring
  rw [hdiff, abs_div, abs_of_pos hden, ← Int.cast_abs, hsign]

theorem overflowBound_le_exactQuotient {neg : Bool} {n d : Nat} (hd : 0 < d) :
    overflowBound ≤ |exactQuotient neg n d| ↔ d * overflowUnits ≤ n := by
  have hd' : (0 : ℚ) < d := Nat.cast_pos.2 hd
  rw [abs_exactQuotient, overflowBound_eq, div_le_div_iff_of_pos_right unit_pos, le_div_iff₀ hd', mul_comm,
    ← Nat.cast_mul, Nat.cast_le]

theorem exactQuotient_neg_iff {neg : Bool} {n d : Nat} (hd : 0 < d) (hn : n ≠ 0) :
    exactQuotient neg n d < 0 ↔ neg = true := by
  have hd' : (0 : ℚ) < d := Nat.cast_pos.2 hd
  rw [exactQuotient, div_lt_iff₀ unit_pos, zero_mul, div_lt_iff₀ hd', zero_mul, Int.cast_lt_zero,
    signedMag_neg_iff hn]

/-- `roundTo` rounds the quotient it is given once, to nearest with ties to even (R10). -/
theorem roundTo_roundedOnce (neg : Bool) {n d : Nat} (hd : 0 < d) :
    RoundedOnce (exactQuotient neg n d) (roundTo neg n d) := by
  have hden : (0 : ℚ) < d * 2 ^ 1074 := mul_pos (Nat.cast_pos.2 hd) unit_pos
  constructor
  · intro hsmall
    have hcode : roundCode n d < infCode := by
      rw [roundCode_lt_infCode_iff hd]
      exact not_le.1 fun h => hsmall.not_ge ((overflowBound_le_exactQuotient hd).2 h)
    rw [roundTo_finite hcode]
    refine ⟨rfl, fun z hz => ?_⟩
    obtain ⟨t, c, -, hzv⟩ := ofBits_finite hz
    obtain ⟨hnear, htie⟩ := roundCode_nearest (n := n) hd (neg ^^ t) c
    rw [hzv, abs_exactQuotient_sub hd, abs_exactQuotient_sub hd, Bool.xor_self, signedMag_false,
      div_le_div_iff_of_pos_right hden, div_left_inj' hden.ne', Int.cast_le, Int.cast_inj]
    refine ⟨hnear, fun heq hne => ?_⟩
    rw [toBits_fin, roundCode_magOfCode]
    refine withSign_even (hcode.trans infCode_lt) (htie heq fun hsame => hne ?_)
    rw [toRat_fin, toRat_fin, signedMag_xor_eq_iff.1 hsame]
  · intro hbig
    have hle := (overflowBound_le_exactQuotient hd).1 hbig
    have hn : n ≠ 0 := by
      have : 0 < d * overflowUnits := Nat.mul_pos hd (by decide +kernel)
      omega
    have hcode : ¬ roundCode n d < infCode := by rw [roundCode_lt_infCode_iff hd]; omega
    rw [roundTo, valueOfCode_infinite hcode]
    simp only [exactQuotient_neg_iff hd hn, Bool.decide_eq_true]

/-- The exact zero rounds to a zero of either sign. -/
theorem roundedOnce_zero (s : Bool) : RoundedOnce 0 (.fin s 0) := by
  have h := roundTo_roundedOnce s (n := 0) Nat.one_pos
  rwa [roundTo_zero, exactQuotient_one, toRat_fin_eq_zero.2 rfl] at h

/-! ### The three rounded primitives on finite operands (R10) -/

theorem add64_roundedOnce (s t : Bool) (m n : Nat) :
    RoundedOnce ((F64.fin s m).toRat + (F64.fin t n).toRat) (add64 (.fin s m) (.fin t n)) := by
  have hsum : (F64.fin s m).toRat + (F64.fin t n).toRat = ((signedMag s m + signedMag t n : Int) : ℚ) / 2 ^ 1074 := by
    rw [toRat_fin, toRat_fin, Int.cast_add, add_div]
  rw [hsum, add64_fin]
  split_ifs with h0
  · rw [h0, Int.cast_zero, zero_div]
    exact roundedOnce_zero _
  · have h := roundTo_roundedOnce (decide (signedMag s m + signedMag t n < 0))
      (n := (signedMag s m + signedMag t n).natAbs) Nat.one_pos
    rwa [exactQuotient_one, toRat_fin, signedMag_neg_natAbs] at h

theorem mul64_roundedOnce (s t : Bool) (m n : Nat) :
    RoundedOnce ((F64.fin s m).toRat * (F64.fin t n).toRat) (mul64 (.fin s m) (.fin t n)) := by
  have hprod : (F64.fin s m).toRat * (F64.fin t n).toRat = exactQuotient (s ^^ t) (m * n) unitsOfOne := by
    rw [exactQuotient, signedMag_mul, unitsOfOne_cast, toRat_fin, toRat_fin, Int.cast_mul, div_mul_div_comm, div_div]
  rw [hprod, mul64_fin]
  exact roundTo_roundedOnce _ unitsOfOne_pos

theorem div64_roundedOnce (s t : Bool) (m : Nat) {n : Nat} (hn : n ≠ 0) :
    RoundedOnce ((F64.fin s m).toRat / (F64.fin t n).toRat) (div64 (.fin s m) (.fin t n)) := by
  have hquot : (F64.fin s m).toRat / (F64.fin t n).toRat = exactQuotient (s ^^ t) (m * unitsOfOne) n := by
    have hunit := unit_pos.ne'
    have hratio : (signedMag (s ^^ t) m : ℚ) / n = (signedMag s m : ℚ) / signedMag t n := by
      cases s <;> cases t <;> simp [neg_div, div_neg]
    rw [exactQuotient, ← Bool.xor_false (s ^^ t), signedMag_mul, signedMag_false, Int.cast_mul,
      Int.cast_natCast, unitsOfOne_cast, mul_div_right_comm, mul_div_cancel_right₀ _ hunit, hratio, toRat_fin,
      toRat_fin, div_div_div_cancel_right₀ hunit]
  rw [hquot, div64_fin hn]
  exact roundTo_roundedOnce _ (Nat.pos_of_ne_zero hn)

/-! ### The floor and the clamp (R10, R13) -/

/-- The floor in units is the rational floor. -/
theorem floorZ_fin (s : Bool) (m : Nat) : floorZ (.fin s m) = some (.int ⌊(F64.fin s m).toRat⌋) := by
  rw [toRat_fin, ← unitsOfOne_cast, Rat.floor_intCast_div_natCast]
  rfl

theorem clampZ_int (k lo hi : Int) : clampZ (.int k) lo hi = if k < lo then lo else if hi < k then hi else k := rfl

theorem clampZ_mem {lo hi : Int} (n : ExtInt) (h : lo ≤ hi) : lo ≤ clampZ n lo hi ∧ clampZ n lo hi ≤ hi := by
  cases n with
  | negInf => exact ⟨le_refl lo, h⟩
  | int k => rw [clampZ_int]; split <;> [skip; split] <;> omega
  | posInf => exact ⟨h, le_refl hi⟩

theorem clampZ_of_below {n : ExtInt} {lo hi : Int} (h : n.below lo = true) : clampZ n lo hi = lo := by
  cases n with
  | negInf => rfl
  | int k => exact if_pos (of_decide_eq_true h)
  | posInf => cases h

theorem clampZ_of_above {n : ExtInt} {lo hi : Int} (hle : lo ≤ hi) (h : n.above hi = true) : clampZ n lo hi = hi := by
  cases n with
  | negInf => cases h
  | int k =>
    have hk : hi < k := of_decide_eq_true h
    rw [clampZ_int, if_neg (by omega), if_pos hk]
  | posInf => rfl

theorem clampZ_of_mem {k lo hi : Int} (hlo : lo ≤ k) (hhi : k ≤ hi) : clampZ (.int k) lo hi = k := by
  rw [clampZ_int, if_neg (by omega), if_neg (by omega)]

/-! ### The obligations -/

/-- Settles O56: reading is inverted by writing, hence injective. -/
theorem bitsAndValuesDetermineEachOther : Obligations.BitsAndValuesDetermineEachOther :=
  fun x _ => ⟨toBits_ofBits x, fun h => ofBits_injective h⟩

/-- Settles O59: both sides compare the signed magnitudes in units. -/
theorem comparisonsFollowTheValues : Obligations.ComparisonsFollowTheValues := by
  intro x y hx hy
  obtain ⟨s, m, hx⟩ := isFinite_iff.1 hx
  obtain ⟨t, n, hy⟩ := isFinite_iff.1 hy
  rw [hx, hy, gt64_def, toRat_fin_lt, toRat_fin_le, toRat_fin_lt]
  exact ⟨lt64_fin_true, le64_fin_true, lt64_fin_true⟩

/-- Settles O58: `floorZ` is the rational floor, and `clampZ` is taken case by case. -/
theorem floorAndClampAreExact : Obligations.FloorAndClampAreExact := by
  refine ⟨fun x hx => ?_, fun n lo hi hle => ?_⟩
  · obtain ⟨s, m, hx⟩ := isFinite_iff.1 hx
    rw [hx]
    exact ⟨_, floorZ_fin s m, Int.floor_le _, Int.lt_floor_add_one _⟩
  · obtain ⟨hlo, hhi⟩ := clampZ_mem n hle
    refine ⟨hlo, hhi, clampZ_of_below, clampZ_of_above hle, ?_⟩
    rintro k rfl h1 h2
    exact clampZ_of_mem h1 h2

/-- Settles O57: the remainder of the magnitudes, with the sign of x, lies on the grid of binary64. -/
theorem remainderIsExact : Obligations.RemainderIsExact := by
  intro x y hx hy hy0
  obtain ⟨s, a, -, hx⟩ := ofBits_finite hx
  obtain ⟨t, b, hb, hy⟩ := ofBits_finite hy
  rw [hy, Ne, toRat_fin_eq_zero] at hy0
  have hb0 : b ≠ 0 := by rintro rfl; exact hy0 magOfCode_zero
  obtain ⟨c, hc, hmod⟩ := mod_on_grid (a := a) hb hb0
  simp only [hx, hy, fmod64_fin hy0]
  refine ⟨⟨s, _, _, rfl, rfl⟩, ⟨signedMag (s ^^ t) (magOfCode a / magOfCode b), ?_⟩, ?_, ?_,
    ofBits_toBits ⟨c, hc, hmod⟩⟩
  · rw [toRat_fin, toRat_fin, toRat_fin, signedMag_mod s t, Int.cast_sub, Int.cast_mul, sub_div, div_mul_eq_mul_div]
  · rw [abs_toRat_fin, abs_toRat_fin, div_lt_div_iff_of_pos_right unit_pos, Nat.cast_lt]
    exact Nat.mod_lt _ (Nat.pos_of_ne_zero hy0)
  · rw [toRat_fin, toRat_fin, div_mul_div_comm, ← Int.cast_mul, ← signedMag_mul, Bool.xor_self, signedMag_false,
      Int.cast_natCast]
    positivity

/-- Settles O55: each primitive is `roundTo` of the exact result, and an exact zero sum needs no rounding. -/
theorem primitivesRoundOnce : Obligations.PrimitivesRoundOnce := by
  intro x y hx hy
  obtain ⟨s, m, hx⟩ := isFinite_iff.1 hx
  obtain ⟨t, n, hy⟩ := isFinite_iff.1 hy
  rw [hx, hy, Ne, toRat_fin_eq_zero]
  exact ⟨add64_roundedOnce s t m n, mul64_roundedOnce s t m n, div64_roundedOnce s t m⟩

/-- Settles O27: on a finite argument `SIN64` is of magnitude at most one, whatever the free value is (`sin64_fin`). -/
theorem sineIsWithinTheUnitInterval : Obligations.SineIsWithinTheUnitInterval := by
  have hzero (s : Bool) : sin64 (.fin s 0) = .fin s 0 := by
    obtain ⟨t, n, hv, -, h0⟩ := sin64_fin s 0
    obtain ⟨rfl, rfl⟩ := h0 rfl
    exact hv
  refine ⟨by rw [ofBits_PZERO, hzero], by rw [ofBits_NZERO, hzero], fun x hx => ?_⟩
  obtain ⟨s, m, hx⟩ := isFinite_iff.1 hx
  obtain ⟨t, n, hv, hn, -⟩ := sin64_fin s m
  rw [hx, hv, f64MinusOne_eq, f64One_eq, le64_fin_true, le64_fin_true, signedMag_true, signedMag_false]
  have habs : |signedMag t n| ≤ unitsOfOne := by rw [abs_signedMag]; exact_mod_cast hn
  exact ⟨rfl, abs_le.1 habs⟩

end Sys2Proof.Machine

/-! PROOFS. The statements about the state (10_state.md): what the words of STATUS, PCM, VOICE and LFSR hold, what one
transaction can do to a render, the invariant of every render, and the obligations O10, O11, O48 to O51 and O53. -/

namespace Sys2Proof.Machine

/-! ### What the registers read as (R30, R35) -/

theorem portRead_status (s : State) : portRead s 0x1 = s.status.word := rfl
theorem portRead_pcm (s : State) : portRead s 0x8 = s.pcm.setWidth 64 := rfl
theorem portRead_voice (s : State) : portRead s 0x9 = s.voice.word := rfl
theorem portRead_lfsr (s : State) : portRead s 0xA = s.lfsr.setWidth 64 := rfl

theorem Status.word_flags (st : Status) :
    st.word.getLsbD 0 = st.err ∧ st.word.getLsbD 5 = st.awarn ∧ st.word.getLsbD 6 = st.cwarn ∧
      st.word.getLsbD 7 = st.edge := by
  simp only [Status.word, BitVec.getLsbD_append, BitVec.getLsbD_ofBool]
  simp

theorem Status.word_errCode (st : Status) : st.word.extractLsb' 1 4 = st.errCode := by
  rw [Status.word, BitVec.extractLsb'_append_eq_of_le (by decide)]
  exact BitVec.extractLsb'_append_eq_right

theorem Status.word_above (st : Status) : st.word.extractLsb' 8 56 = 0 := by
  rw [Status.word]
  iterate 4 rw [BitVec.extractLsb'_append_eq_of_le (by decide)]
  exact BitVec.extractLsb'_append_eq_left

theorem Voice.word_kind (v : Voice) : v.word.extractLsb' 0 2 = kindCode v.kind := BitVec.extractLsb'_append_eq_right

theorem Voice.word_mode (v : Voice) : v.word.extractLsb' 2 1 = modeCode v.mode := by
  rw [Voice.word, BitVec.extractLsb'_append_eq_of_le (by decide)]
  exact BitVec.extractLsb'_append_eq_right

theorem Voice.word_above (v : Voice) : v.word.extractLsb' 3 61 = 0 := by
  rw [Voice.word, BitVec.extractLsb'_append_eq_of_le (by decide)]
  exact BitVec.extractLsb'_append_eq_left

/-- A register read into a wider word stands in its low bits. -/
theorem extractLsb'_setWidth_low {w n : Nat} (x : BitVec w) (hn : w ≤ n) : (x.setWidth n).extractLsb' 0 w = x := by
  rw [BitVec.extractLsb'_setWidth_of_le (by omega), BitVec.extractLsb'_eq_self]

/-- A register read into a wider word leaves the bits above it zero. -/
theorem extractLsb'_setWidth_above {w n k : Nat} (x : BitVec w) : (x.setWidth n).extractLsb' w k = 0#k := by
  refine BitVec.eq_of_getLsbD_eq fun i hi => ?_
  simp [hi]

/-! ### What one transaction can do to a render -/

/-- A word the decoder accepts is the command's own word (R72, R73). -/
theorem eq_encode_of_decode_ok {w : Word} {i : Instr} (h : decode w = .ok i) : w = encode i := by
  obtain ⟨r, hr, hw, rfl⟩ := decode_ok_mem h
  simp only [opcodeTable, List.mem_cons, List.not_mem_nil, or_false] at hr
  rcases hr with rfl | rfl | rfl | rfl | rfl | rfl | rfl | rfl | rfl <;>
    exact eq_of_beq ((OpcodeRow.matchesWord_allOnes _ _ _).symm.trans hw)

/-- The results and the voice of a render are the same: every register a command can write but STATUS. -/
structure SameRender (s t : State) : Prop where
  amp   : t.amp = s.amp
  pcm   : t.pcm = s.pcm
  voice : t.voice = s.voice
  lfsr  : t.lfsr = s.lfsr
  phase : t.phase = s.phase
  freqL : t.freqL = s.freqL
  volL  : t.volL = s.volL

theorem SameRender.refl (s : State) : SameRender s s := ⟨rfl, rfl, rfl, rfl, rfl, rfl, rfl⟩

theorem SameRender.trans {s t u : State} (h : SameRender s t) (h' : SameRender t u) : SameRender s u :=
  ⟨h'.amp.trans h.amp, h'.pcm.trans h.pcm, h'.voice.trans h.voice, h'.lfsr.trans h.lfsr, h'.phase.trans h.phase,
    h'.freqL.trans h.freqL, h'.volL.trans h.volL⟩

theorem sameRender_recordError (c : ErrorCode) (s : State) : SameRender s (recordError c s) :=
  ⟨rfl, rfl, rfl, rfl, rfl, rfl, rfl⟩

/-- The effects a transaction can have on STATUS, the results and the voice; `transact_effect` says that these are all.
`keep` leaves open what becomes of the operand registers and of what the host has sent and read. -/
inductive RenderEffect (s : State) : Transaction → State → Prop where
  | reset : RenderEffect s .reset (resetBlock s)
  | latch {tr : Transaction} {k : Kind} {m : Mode} (hinit : isInitWrite tr = true) (hmode : k ≠ .noise → m = .long)
      (hfreq : freqOK k (freqOperand s) = true) (hvol : volOK k (volOperand s) = true) :
      RenderEffect s tr (latchVoice k m s)
  | failedInit {tr : Transaction} {c : ErrorCode} (hinit : isInitWrite tr = true) :
      RenderEffect s tr { s with status := Status.failedInit c }
  | keep {tr : Transaction} {t : State} (hsame : SameRender s t)
      (hstatus : t.status = s.status ∨ ∃ c, t.status = s.status.record c) : RenderEffect s tr t
  | quant {q : Quantized} (hok : s.status.err = false) : RenderEffect s (cmd .quant) (commitQuant q s)
  | sample {r : Sampled} (hok : s.status.err = false) (hr : sampleVoice s = .ok r) :
      RenderEffect s (cmd .sample) (commitSample r s)
  | sampleq {r : Sampled} {q : Quantized} (hok : s.status.err = false) (hr : sampleVoice s = .ok r) :
      RenderEffect s (cmd .sampleq) (commitQuant q (commitSample r s))

theorem RenderEffect.of_recordError {tr : Transaction} (c : ErrorCode) (s : State) :
    RenderEffect s tr (recordError c s) :=
  .keep (sameRender_recordError c s) (.inr ⟨c, rfl⟩)

theorem isInitWrite_cmd {i : Instr} {w : Word} (h : decode w = .ok i) : isInitWrite (.write 0x0 w) = isInit i := by
  simp [isInitWrite, h]

theorem startsAfresh_of_isInitWrite {tr : Transaction} (h : isInitWrite tr = true) : startsAfresh tr = true := by
  cases tr with
  | write idx v => exact h
  | read idx => cases h
  | reset => rfl

/-- The effect of a command (R90). -/
theorem exec_effect {i : Instr} {w : Word} {s t : State} (hw : decode w = .ok i) (h : exec i s = .next t) :
    RenderEffect s (.write 0x0 w) t := by
  have hinit := isInitWrite_cmd hw
  obtain rfl := eq_encode_of_decode_ok hw
  rcases exec_cases h with ⟨-, -, rfl⟩ | ⟨k, m, hm, rfl, hf, hv, rfl⟩ | ⟨k, m, c, -, rfl, -, rfl⟩ | ⟨-, -, c, rfl, -⟩ |
    ⟨rfl, hok, r, hr, rfl⟩ | ⟨rfl, hok, q, -, rfl⟩ | ⟨rfl, hok, r, q, hr, -, rfl⟩
  · exact .keep (.refl _) (.inl rfl)
  · exact .latch (hinit.trans (isInit_initCommand k m)) hm hf hv
  · exact .failedInit (hinit.trans (isInit_initCommand k m))
  · exact .of_recordError c s
  · exact .sample hok hr
  · exact .quant hok
  · exact .sampleq hok hr

/-- The effect of a port store (R52): the operand registers are no part of the render. -/
theorem portStore_effect {tr : Transaction} (idx : RegIndex) (v : Word) (s : State) :
    RenderEffect s tr (portStore idx v s) := by
  rcases portStore_cases idx v s with ⟨-, h⟩ | ⟨-, h⟩ | ⟨-, h⟩ | ⟨-, h⟩ | ⟨-, h⟩ | ⟨-, h⟩ <;> rw [h]
  case inr.inr.inr.inr.inr => exact .of_recordError _ s
  all_goals exact .keep ⟨rfl, rfl, rfl, rfl, rfl, rfl, rfl⟩ (.inl rfl)

/-- Every transaction has one of the effects. -/
theorem transact_effect {tr : Transaction} {s t : State} (h : transact tr s = .next t) : RenderEffect s tr t := by
  rcases transact_cases h with ⟨v, i, rfl, hi, hx⟩ | ⟨v, rfl, -, rfl⟩ | ⟨idx, v, rfl, -, rfl⟩ | ⟨idx, rfl, rfl⟩ |
    ⟨rfl, rfl⟩
  · exact exec_effect hi hx
  · exact .of_recordError _ s
  · exact portStore_effect idx v s
  · exact .keep ⟨rfl, rfl, rfl, rfl, rfl, rfl, rfl⟩ (.inl rfl)
  · exact .reset

/-- Every step is idle or has the effect of the host's next transaction. -/
theorem step_effect {s t : State} (h : step s = .next t) :
    t = s ∨ ∃ tr rest, s.pending = tr :: rest ∧ RenderEffect { s with pending := rest } tr t := by
  cases hp : s.pending with
  | nil => rw [step_idle hp] at h; cases h; exact .inl rfl
  | cons tr rest => rw [step_transact hp] at h; exact .inr ⟨tr, rest, rfl, transact_effect h⟩

/-! ### Errors and warnings over a run (R31, R32) -/

/-- With an error recorded, only INIT and reset have an effect (R91, R224). -/
theorem RenderEffect.of_err {s t : State} {tr : Transaction} (h : RenderEffect s tr t) (herr : s.status.err = true)
    (htr : startsAfresh tr = false) : t.status = s.status ∧ SameRender s t := by
  cases h with
  | reset => cases htr
  | latch hinit => rw [startsAfresh_of_isInitWrite hinit] at htr; cases htr
  | failedInit hinit => rw [startsAfresh_of_isInitWrite hinit] at htr; cases htr
  | keep hsame hstatus =>
    obtain hst | ⟨c, hst⟩ := hstatus
    · exact ⟨hst, hsame⟩
    · exact ⟨hst.trans (Status.record_of_err herr), hsame⟩
  | quant hok => rw [hok] at herr; cases herr
  | sample hok => rw [hok] at herr; cases herr
  | sampleq hok => rw [hok] at herr; cases herr

/-- Only INIT and reset clear a warning (R32, R230). -/
theorem RenderEffect.warnings_stay {s t : State} {tr : Transaction} (h : RenderEffect s tr t)
    (htr : startsAfresh tr = false) :
    (s.status.awarn = true → t.status.awarn = true) ∧ (s.status.cwarn = true → t.status.cwarn = true) := by
  cases h with
  | reset => cases htr
  | latch hinit => rw [startsAfresh_of_isInitWrite hinit] at htr; cases htr
  | failedInit hinit => rw [startsAfresh_of_isInitWrite hinit] at htr; cases htr
  | keep _ hstatus => obtain hst | ⟨c, hst⟩ := hstatus <;> simp [hst]
  | quant => simp +contextual
  | sample => simp
  | sampleq => simp +contextual

/-- A transaction that leaves an error sets no warning (R230). -/
theorem RenderEffect.no_new_warning_of_err {s t : State} {tr : Transaction} (h : RenderEffect s tr t)
    (herr : t.status.err = true) :
    (t.status.awarn = true → s.status.awarn = true) ∧ (t.status.cwarn = true → s.status.cwarn = true) := by
  cases h with
  | reset => cases herr
  | latch => cases herr
  | failedInit => exact ⟨nofun, nofun⟩
  | keep _ hstatus => obtain hst | ⟨c, hst⟩ := hstatus <;> simp [hst]
  | quant hok => exact absurd (hok.symm.trans herr) nofun
  | sample hok => exact absurd (hok.symm.trans herr) nofun
  | sampleq hok => exact absurd (hok.symm.trans herr) nofun

/-- What every transaction keeps holds after a run of them; the host's list of transactions does not matter to it. -/
theorem runHost_keeps {P : State → Prop} {allowed : Transaction → Prop}
    (hpending : ∀ s l, P s → P { s with pending := l })
    (htransact : ∀ {tr s t}, allowed tr → P s → transact tr s = .next t → P t) :
    ∀ (ts : List Transaction) (s : State), (∀ tr ∈ ts, allowed tr) → P s → ∃ u, runHost ts s = .next u ∧ P u
  | [], s, _, hs => ⟨_, runHost_nil s, hpending s [] hs⟩
  | tr :: ts, s, hts, hs => by
    obtain ⟨t, ht, -⟩ := transact_next tr { s with pending := ts }
    rw [runHost_cons ht]
    exact runHost_keeps hpending htransact ts t (fun tr' hm => hts tr' (.tail _ hm))
      (htransact (hts tr (.head _)) (hpending s ts hs) ht)

/-! ### The shift register (R163, R166, R167) -/

theorem lfsrSeed_topClear : lfsrSeed.getLsbD 14 = false := by decide

theorem lfsrSeed_ne_zero : lfsrSeed ≠ 0 := by decide

/-- The thirteen bits an advance shifts down. -/
theorem advance_shifted (b : Lfsr) (m : Mode) {i : Nat} (hi : i < 13) :
    (advance b m).getLsbD i = b.getLsbD (i + 1) := by
  have hmask : (0x3FFF#15).getLsbD (i + 1) = true := by interval_cases i <;> rfl
  simp [advance, Nat.add_comm 1 i, hmask, show i + 1 < 14 by omega]

/-- A nonzero register advances to a nonzero one: a zero result would have every shifted bit and the feedback zero. -/
theorem advance_ne_zero {b : Lfsr} {m : Mode} (htop : b.getLsbD 14 = false) (hb : b ≠ 0) : advance b m ≠ 0 := by
  intro h0
  have hshift (i : Nat) (hi : i < 13) : b.getLsbD (i + 1) = false := by
    rw [← advance_shifted b m hi, h0]; exact BitVec.getLsbD_zero
  have htap : b.getLsbD (tapBit m) = false := by
    cases m
    · exact hshift 0 (by decide)
    · exact hshift 5 (by decide)
  have hlow : b.getLsbD 0 = false := by
    have hback := advance_bit13 b m
    rw [h0, htap, Bool.xor_false] at hback
    exact hback.symm.trans BitVec.getLsbD_zero
  refine hb (BitVec.eq_of_getLsbD_eq fun i hi => ?_)
  rw [show (0 : Lfsr).getLsbD i = false from BitVec.getLsbD_zero]
  rcases i with _ | i
  · exact hlow
  · rcases Nat.lt_or_ge i 13 with h | h
    · exact hshift i h
    · rwa [show i = 13 by omega]

/-- A sample moves the shift register by at most one advance (R165). -/
theorem sampleVoice_lfsr {s : State} {r : Sampled} (h : sampleVoice s = .ok r) :
    r.lfsr = s.lfsr ∨ r.lfsr = advance s.lfsr s.voice.mode := by
  obtain ⟨-, ⟨-, rfl⟩ | ⟨-, -, rfl⟩ | ⟨-, rfl⟩ | ⟨-, rfl⟩⟩ := sampleVoice_ok h
  · exact .inl rfl
  · exact .inl rfl
  · exact .inl rfl
  · change noiseLfsr s = _ ∨ noiseLfsr s = _
    unfold noiseLfsr
    split
    · exact .inr rfl
    · exact .inl rfl

/-- A completed sample of a NOISE voice is `NoiseStep` at a legal time. -/
theorem sampleVoice_noise {s : State} {r : Sampled} (h : sampleVoice s = .ok r) (hk : s.voice.kind = .noise) :
    timeOK (timeOperand s) = true ∧ r = noiseStep s := by
  obtain ⟨htime, ⟨hk', -⟩ | ⟨hk', -, -⟩ | ⟨hk', -⟩ | ⟨-, hr⟩⟩ := sampleVoice_ok h
  case inr.inr.inr => exact ⟨htime, hr⟩
  all_goals rw [hk] at hk'; cases hk'

/-! ### Who writes the noise state and the voice (R33 to R37) -/

/-- A sample that changes LFSR or PHASE is one of a NOISE voice and advances at most once (R165). -/
theorem sampleVoice_noise_of_ne {s : State} {r : Sampled} (h : sampleVoice s = .ok r)
    (hne : r.lfsr ≠ s.lfsr ∨ r.phase ≠ s.phase) :
    s.voice.kind = .noise ∧ (r.lfsr = s.lfsr ∨ r.lfsr = advance s.lfsr s.voice.mode) := by
  refine ⟨?_, sampleVoice_lfsr h⟩
  by_contra hk
  obtain ⟨-, hl, hp⟩ := sampleVoice_stateless h hk
  exact hne.elim (· hl) (· hp)

/-- Who changes LFSR or PHASE, and to what. -/
theorem RenderEffect.noise_state {s t : State} {tr : Transaction} (h : RenderEffect s tr t)
    (hne : t.lfsr ≠ s.lfsr ∨ t.phase ≠ s.phase) :
    (startsAfresh tr = true ∧ t.lfsr = 0x0001 ∧ t.phase = PZERO) ∨
    ((tr = cmd .sample ∨ tr = cmd .sampleq) ∧ s.voice.kind = .noise ∧ s.status.err = false ∧
      (t.lfsr = s.lfsr ∨ t.lfsr = advance s.lfsr s.voice.mode)) := by
  cases h with
  | reset => exact .inl ⟨rfl, rfl, rfl⟩
  | latch hinit => exact .inl ⟨startsAfresh_of_isInitWrite hinit, rfl, rfl⟩
  | failedInit => simp at hne
  | keep hsame => exact absurd hne (by simp [hsame.lfsr, hsame.phase])
  | quant => simp at hne
  | sample hok hr =>
    obtain ⟨hk, hl⟩ := sampleVoice_noise_of_ne hr hne
    exact .inr ⟨.inl rfl, hk, hok, hl⟩
  | sampleq hok hr =>
    obtain ⟨hk, hl⟩ := sampleVoice_noise_of_ne hr hne
    exact .inr ⟨.inr rfl, hk, hok, hl⟩

/-- Who changes VOICE, FREQ_L or VOL_L, and to what. -/
theorem RenderEffect.voice {s t : State} {tr : Transaction} (h : RenderEffect s tr t)
    (hne : t.voice ≠ s.voice ∨ t.freqL ≠ s.freqL ∨ t.volL ≠ s.volL) :
    tr = .reset ∨ (isInitWrite tr = true ∧ t.status.err = false ∧ t.freqL = s.freq ∧ t.volL = s.vol) := by
  cases h with
  | reset => exact .inl rfl
  | latch hinit => exact .inr ⟨hinit, rfl, rfl, rfl⟩
  | keep hsame => exact absurd hne (by simp [hsame.voice, hsame.freqL, hsame.volL])
  | failedInit | quant | sample | sampleq => simp at hne

/-! ### The phase of a noise voice (R161) -/

/-- A frequency a NOISE voice accepts has a half period that is finite and above zero (R99). -/
theorem halfPeriod_of_freqOK {f : F64} (h : freqOK .noise f = true) :
    ∃ c, 0 < c ∧ c < infCode ∧ halfPeriod f = .fin false (magOfCode c) := by
  simp only [freqOK, Bool.and_eq_true] at h
  obtain ⟨⟨⟨hfin, hpos⟩, hmul⟩, hdiv⟩ := h
  obtain ⟨s, m, rfl⟩ := isFinite_iff.1 hfin
  obtain rfl : s = false := by
    cases s
    · rfl
    · rw [gt64_def, f64Zero_eq, lt64_fin_true, signedMag_false, signedMag_true] at hpos; omega
  rw [f64Two_eq, mul64_fin, isFinite_roundTo] at hmul
  set d := roundCode (m * (2 * unitsOfOne)) unitsOfOne
  have htwice : mul64 (.fin false m) f64Two = .fin false (magOfCode d) := by
    rw [f64Two_eq, mul64_fin]; exact roundTo_finite hmul
  unfold halfPeriod
  rw [htwice, f64One_eq] at hdiv ⊢
  have hd : magOfCode d ≠ 0 := by
    intro h0
    have hinf : div64 (.fin false unitsOfOne) (.fin false 0) = .inf false :=
      if_neg unitsOfOne_pos.ne'
    rw [h0, hinf] at hdiv
    cases hdiv
  rw [div64_fin hd, isFinite_roundTo] at hdiv
  rw [div64_fin hd]
  refine ⟨_, le_roundCode_of_le (Nat.pos_of_ne_zero hd) ?_, hdiv, roundTo_finite hdiv⟩
  calc magOfCode d * magOfCode 1 ≤ magOfCode infCode * magOfCode 1 :=
        Nat.mul_le_mul_right _ (magOfCode_strictMono.monotone hmul.le)
    _ ≤ unitsOfOne * unitsOfOne := by decide +kernel

/-- +0.0 is a phase of every noise voice. -/
theorem zero_lt_halfPeriod {f : F64} (h : freqOK .noise f = true) : lt64 (F64.ofBits PZERO) (halfPeriod f) = true := by
  obtain ⟨c, hc, -, hp⟩ := halfPeriod_of_freqOK h
  rw [hp, ofBits_PZERO, lt64_fin_true, signedMag_zero, signedMag_false]
  exact_mod_cast magOfCode_pos.2 hc

theorem phaseOK_PZERO : phaseOK (F64.ofBits PZERO) = true := by decide +kernel

theorem phaseOK_fin {s : Bool} {m : Nat} : phaseOK (.fin s m) = true ↔ s = false ∨ m = 0 := by
  rw [phaseOK, isFinite_fin, Bool.true_and, Bool.not_eq_true', f64Zero_eq, lt64_fin_false, signedMag_zero]
  cases s <;> simp

/-- A legal time is a legal phase: finite and not below zero (R101). -/
theorem timeOK_eq_phaseOK (t : F64) : timeOK t = phaseOK t := by
  cases t <;> rfl

/-- The phase a noise sample writes is legal and below the half period, and its bits keep its value (R161). -/
theorem noisePhase_legal {s : State} (hfreq : freqOK .noise (freqLOperand s) = true)
    (htime : timeOK (timeOperand s) = true) :
    phaseOK (noisePhase s) = true ∧ lt64 (noisePhase s) (halfPeriod (freqLOperand s)) = true ∧
      F64.ofBits (noisePhase s).toBits = noisePhase s := by
  obtain ⟨c, hpos, hc, hhalf⟩ := halfPeriod_of_freqOK hfreq
  have hmag := magOfCode_pos.2 hpos
  have hfin : isFinite (F64.ofBits s.time) = true := by
    rw [timeOK_eq_phaseOK] at htime
    exact (Bool.and_eq_true_iff.1 htime).1
  obtain ⟨n, a, -, ht⟩ := ofBits_finite hfin
  rw [timeOperand, ht, timeOK_eq_phaseOK, phaseOK_fin] at htime
  have hphase : noisePhase s = .fin n (magOfCode a % magOfCode c) := by
    rw [noisePhase, timeOperand, ht, hhalf, fmod64_fin hmag.ne']
  rw [hphase, hhalf, phaseOK_fin, lt64_fin_true, signedMag_false]
  have hlt := Nat.mod_lt (magOfCode a) hmag
  refine ⟨htime.imp_right fun h0 => by rw [h0, Nat.zero_mod], ?_, ofBits_toBits (mod_on_grid hc hpos.ne')⟩
  cases n
  · exact Int.ofNat_lt.2 hlt
  · rw [signedMag_true]; omega

/-! ### The amplitude (R103, R222) -/

theorem isFinite_neg64 (x : Word) : isFinite (F64.ofBits (neg64 x)) = isFinite (F64.ofBits x) := by
  have hcode : (neg64 x).toNat % 2 ^ 63 = x.toNat % 2 ^ 63 := by
    rw [neg64, BitVec.toNat_xor, Nat.xor_mod_two_pow]
    exact Nat.xor_zero _
  rw [Bool.eq_iff_iff, ofBits_finite_iff, ofBits_finite_iff, hcode]

/-- A sine of a finite argument times a finite volume is finite: the sine's magnitude is at most one (R14). -/
theorem isFinite_sine {x : F64} {v : Word} (hx : isFinite x = true) (hv : isFinite (F64.ofBits v) = true) :
    isFinite (F64.ofBits (mul64 (sin64 x) (F64.ofBits v)).toBits) = true := by
  obtain ⟨s, m, rfl⟩ := isFinite_iff.1 hx
  obtain ⟨t, n, hsin, hn, -⟩ := sin64_fin s m
  obtain ⟨u, c, hc, hv⟩ := ofBits_finite hv
  obtain ⟨d, -, hround⟩ := roundTo_le (neg := t ^^ u) unitsOfOne_pos hc (Nat.mul_le_mul_right (magOfCode c) hn)
  rw [hsin, hv, mul64_fin, ofBits_toBits (roundTo_representable _ _ _), hround, isFinite_fin]

theorem isFinite_noiseAmp (b : Lfsr) : isFinite (F64.ofBits (noiseAmp b)) = true := by
  unfold noiseAmp
  split
  · change isFinite f64One = true; rw [f64One_eq, isFinite_fin]
  · change isFinite f64MinusOne = true; rw [f64MinusOne_eq, isFinite_fin]

theorem isFinite_squareAmp {s : State} (hv : isFinite (F64.ofBits s.volL) = true) :
    isFinite (F64.ofBits (squareAmp s)) = true := by
  unfold squareAmp
  split
  · rw [isFinite_neg64]; exact hv
  · exact hv

/-- A completed sample of a latched voice has a finite amplitude. -/
theorem sampleVoice_amp_finite {s : State} {r : Sampled} (hvol : volOK s.voice.kind (volLOperand s) = true)
    (h : sampleVoice s = .ok r) : isFinite (F64.ofBits r.amp) = true := by
  obtain ⟨-, ⟨-, rfl⟩ | ⟨hk, harg, rfl⟩ | ⟨hk, rfl⟩ | ⟨-, rfl⟩⟩ := sampleVoice_ok h
  · change isFinite (F64.ofBits PZERO) = true; rw [ofBits_PZERO, isFinite_fin]
  · rw [hk] at hvol; exact isFinite_sine harg hvol
  · rw [hk] at hvol; exact isFinite_squareAmp hvol
  · exact isFinite_noiseAmp _

/-! ### The invariant, effect by effect -/

/-- ERRCODE is zero without an error and one of the codes of R221 with one (R31). -/
def Status.CodeOK (st : Status) : Prop :=
  (st.err = false → st.errCode = 0) ∧ (st.err = true → 1 ≤ st.errCode.toNat ∧ st.errCode.toNat ≤ 8)

theorem State.Inv.codeOK {s : State} (h : s.Inv) : s.status.CodeOK := ⟨h.noErrorNoCode, h.errorHasCode⟩

theorem Status.failedInit_codeOK (c : ErrorCode) : (Status.failedInit c).CodeOK :=
  ⟨nofun, fun _ => by cases c <;> decide⟩

theorem Status.CodeOK.record {st : Status} (h : st.CodeOK) (c : ErrorCode) : (st.record c).CodeOK := by
  cases herr : st.err with
  | true => rwa [Status.record_of_err herr]
  | false =>
    rw [Status.record_of_no_err herr]
    exact Status.failedInit_codeOK c

theorem State.Inv.of_sameRender {s t : State} (h : s.Inv) (hsame : SameRender s t) (hcode : t.status.CodeOK) :
    t.Inv := by
  obtain ⟨hamp, -, hvoice, hlfsr, hphase, hfreqL, hvolL⟩ := hsame
  constructor
  case noErrorNoCode => exact hcode.1
  case errorHasCode => exact hcode.2
  all_goals simp only [hamp, hvoice, hlfsr, hphase, hfreqL, hvolL]
  exacts [h.modeOnlyNoise, h.freqLatchedOK, h.volLatchedOK, h.lfsrTopClear, h.lfsrNonzero, h.phaseLegal,
    h.phaseBelowHalf, h.ampFinite]

theorem resetBlock_inv (s : State) : (resetBlock s).Inv where
  noErrorNoCode _ := rfl
  errorHasCode := nofun
  modeOnlyNoise _ := rfl
  freqLatchedOK := rfl
  volLatchedOK := rfl
  lfsrTopClear := lfsrSeed_topClear
  lfsrNonzero := lfsrSeed_ne_zero
  phaseLegal := phaseOK_PZERO
  phaseBelowHalf := nofun
  ampFinite := by rw [resetBlock_amp, ofBits_PZERO, isFinite_fin]

theorem latchVoice_inv {s : State} (h : s.Inv) {k : Kind} {m : Mode} (hmode : k ≠ .noise → m = .long)
    (hfreq : freqOK k (freqOperand s) = true) (hvol : volOK k (volOperand s) = true) : (latchVoice k m s).Inv where
  noErrorNoCode _ := rfl
  errorHasCode := nofun
  modeOnlyNoise := hmode
  freqLatchedOK := hfreq
  volLatchedOK := hvol
  lfsrTopClear := lfsrSeed_topClear
  lfsrNonzero := lfsrSeed_ne_zero
  phaseLegal := phaseOK_PZERO
  phaseBelowHalf hk := by
    change k = .noise at hk
    subst hk
    exact zero_lt_halfPeriod hfreq
  ampFinite := h.ampFinite

theorem commitQuant_inv {s : State} (h : s.Inv) (q : Quantized) : (commitQuant q s).Inv := { h with }

theorem commitSample_inv {s : State} (h : s.Inv) {r : Sampled} (hr : sampleVoice s = .ok r) :
    (commitSample r s).Inv := by
  have hlfsr : r.lfsr.getLsbD 14 = false ∧ r.lfsr ≠ 0 := by
    obtain he | he := sampleVoice_lfsr hr <;> rw [he]
    · exact ⟨h.lfsrTopClear, h.lfsrNonzero⟩
    · exact ⟨advance_bit14 _ _, advance_ne_zero h.lfsrTopClear h.lfsrNonzero⟩
  have hphase : phaseOK (F64.ofBits r.phase) = true ∧ (s.voice.kind = .noise →
      lt64 (F64.ofBits r.phase) (halfPeriod (F64.ofBits s.freqL)) = true) := by
    by_cases hk : s.voice.kind = .noise
    · obtain ⟨htime, rfl⟩ := sampleVoice_noise hr hk
      have hfreq := h.freqLatchedOK
      rw [hk] at hfreq
      obtain ⟨hlegal, hbelow, hbits⟩ := noisePhase_legal hfreq htime
      change phaseOK (F64.ofBits (noisePhase s).toBits) = true ∧ (_ → lt64 (F64.ofBits (noisePhase s).toBits) _ = true)
      rw [hbits]
      exact ⟨hlegal, fun _ => hbelow⟩
    · obtain ⟨-, -, he⟩ := sampleVoice_stateless hr hk
      rw [he]
      exact ⟨h.phaseLegal, h.phaseBelowHalf⟩
  exact { h with
    lfsrTopClear := hlfsr.1
    lfsrNonzero := hlfsr.2
    phaseLegal := hphase.1
    phaseBelowHalf := hphase.2
    ampFinite := sampleVoice_amp_finite h.volLatchedOK hr }

/-- The invariant of a render is kept by every effect. -/
theorem RenderEffect.keeps_inv {s t : State} {tr : Transaction} (he : RenderEffect s tr t) (h : s.Inv) : t.Inv := by
  cases he with
  | reset => exact resetBlock_inv s
  | latch _ hmode hfreq hvol => exact latchVoice_inv h hmode hfreq hvol
  | @failedInit _ c _ =>
    exact { h with noErrorNoCode := (Status.failedInit_codeOK c).1, errorHasCode := (Status.failedInit_codeOK c).2 }
  | keep hsame hstatus =>
    obtain hst | ⟨c, hst⟩ := hstatus
    · exact h.of_sameRender hsame (hst ▸ h.codeOK)
    · exact h.of_sameRender hsame (hst ▸ h.codeOK.record c)
  | quant => exact commitQuant_inv h _
  | sample _ hr => exact commitSample_inv h hr
  | sampleq _ hr => exact commitQuant_inv (commitSample_inv h hr) _

/-! ### The obligations -/

/-- Settles O53: a step has one of the effects of `RenderEffect`, and each keeps the invariant. -/
theorem everyStepKeepsTheInvariant : Obligations.EveryStepKeepsTheInvariant := by
  intro s t h hstep
  obtain rfl | ⟨tr, rest, -, he⟩ := step_effect hstep
  · exact h
  · exact he.keeps_inv { h with }

/-- Settles O48: with ERR = 1 every transaction but INIT and reset keeps STATUS and the render. -/
theorem firstErrorStaysUntilInitOrReset : Obligations.FirstErrorStaysUntilInitOrReset := by
  intro ts s herr hts
  obtain ⟨u, hu, hstatus, hsame⟩ := runHost_keeps (P := fun u => u.status = s.status ∧ SameRender s u)
    (allowed := fun tr => startsAfresh tr = false) (fun _ _ ⟨hst, hsame⟩ => ⟨hst, { hsame with }⟩)
    (fun htr ⟨hst, hsame⟩ ht => by
      obtain ⟨hst', hsame'⟩ := (transact_effect ht).of_err (by rw [hst]; exact herr) htr
      exact ⟨hst'.trans hst, hsame.trans hsame'⟩) ts s hts ⟨rfl, .refl s⟩
  exact ⟨u, hu, hstatus, hsame.amp, hsame.pcm, hsame.voice, hsame.lfsr, hsame.phase, hsame.freqL, hsame.volL⟩

/-- Settles O49: no transaction but INIT and reset clears a warning, and one that leaves an error sets none. -/
theorem warningsStayUntilInitOrReset : Obligations.WarningsStayUntilInitOrReset := by
  constructor
  · intro ts s hts
    exact runHost_keeps
      (P := fun u => (s.status.awarn = true → u.status.awarn = true) ∧ (s.status.cwarn = true → u.status.cwarn = true))
      (fun _ _ h => h)
      (fun htr ⟨ha, hc⟩ ht =>
        have ⟨ha', hc'⟩ := (transact_effect ht).warnings_stay htr
        ⟨ha' ∘ ha, hc' ∘ hc⟩) ts s hts ⟨id, id⟩
  · intro s t hstep hnew
    by_contra herr
    have hold : (t.status.awarn = true → s.status.awarn = true) ∧ (t.status.cwarn = true → s.status.cwarn = true) := by
      obtain rfl | ⟨tr, rest, -, he⟩ := step_effect hstep
      · exact ⟨id, id⟩
      · exact he.no_new_warning_of_err (by simpa using herr)
    rcases hnew with ⟨hs, ht⟩ | ⟨hs, ht⟩
    · exact absurd (hs.symm.trans (hold.1 ht)) nofun
    · exact absurd (hs.symm.trans (hold.2 ht)) nofun

/-- Settles O50: INIT and reset reseed the noise state, and of the other effects only a sample writes it. -/
theorem onlyInitNoiseAndResetWriteTheNoiseState : Obligations.OnlyInitNoiseAndResetWriteTheNoiseState := by
  intro s t hstep hne
  obtain rfl | ⟨tr, rest, hp, he⟩ := step_effect hstep
  · simp at hne
  · exact ⟨tr, rest, hp, he.noise_state hne⟩

/-- Settles O51: of the effects only reset and a successful INIT write the voice. -/
theorem onlyInitAndResetWriteTheVoice : Obligations.OnlyInitAndResetWriteTheVoice := by
  intro s t hstep hne
  obtain rfl | ⟨tr, rest, hp, he⟩ := step_effect hstep
  · simp at hne
  · exact ⟨tr, rest, hp, he.voice hne⟩

/-- Settles O10: the word of STATUS is its fields laid side by side. -/
theorem statusReadsAsItsFields : Obligations.StatusReadsAsItsFields := by
  intro s
  rw [portRead_status]
  obtain ⟨herr, hawarn, hcwarn, hedge⟩ := s.status.word_flags
  exact ⟨herr, s.status.word_errCode, hawarn, hcwarn, hedge, s.status.word_above⟩

/-- Settles O11: the narrow registers stand in the low bits of their words, with zeros above. -/
theorem unusedBitsReadZero : Obligations.UnusedBitsReadZero := by
  intro s
  rw [portRead_pcm, portRead_voice, portRead_lfsr]
  exact ⟨rfl, rfl, rfl, extractLsb'_setWidth_low _ (by decide), extractLsb'_setWidth_above _, s.voice.word_kind,
    s.voice.word_mode, s.voice.word_above, extractLsb'_setWidth_low _ (by decide), extractLsb'_setWidth_above _⟩

end Sys2Proof.Machine

/-! PROOFS. The statements about the port (20_memory.md): what a step does with a write to an index other than CMD, what
each index reads as after a store and after a read, and the obligations O6 to O9. -/

namespace Sys2Proof.Machine

/-! ### Port writes (R52) -/

/-- The operand registers' indices are 0x2 to 0x6 (R51). -/
theorem operandIndex_cases : ∀ {idx : RegIndex}, 2 ≤ idx.toNat → idx.toNat ≤ 6 →
    idx = 0x2 ∨ idx = 0x3 ∨ idx = 0x4 ∨ idx = 0x5 ∨ idx = 0x6 := by decide

/-- A step that performs a write to an index other than CMD is its port store. -/
theorem step_write {s : State} {idx : RegIndex} {v : Word} {rest : List Transaction}
    (hp : s.pending = .write idx v :: rest) (hidx : idx ≠ 0x0) :
    step s = .next (portStore idx v { s with pending := rest }) :=
  (step_transact hp).trans (if_neg hidx)

/-- Read after write: an operand register's index reads as the word stored, every other index as before. -/
theorem portRead_portStore {idx : RegIndex} (hlow : 2 ≤ idx.toNat) (hhigh : idx.toNat ≤ 6) (v : Word) (s : State)
    (j : RegIndex) : portRead (portStore idx v s) j = if j = idx then v else portRead s j := by
  obtain ⟨⟨n, hn⟩⟩ := j
  obtain rfl | rfl | rfl | rfl | rfl := operandIndex_cases hlow hhigh <;> interval_cases n <;> rfl

/-- A store to a read-only or reserved index is BAD_ACCESS. -/
theorem portStore_badAccess {idx : RegIndex} (h : idx = 0x1 ∨ 7 ≤ idx.toNat) (v : Word) (s : State) :
    portStore idx v s = recordError .badAccess s := by
  obtain ⟨rfl, -⟩ | ⟨rfl, -⟩ | ⟨rfl, -⟩ | ⟨rfl, -⟩ | ⟨rfl, -⟩ | ⟨-, hstore⟩ := portStore_cases idx v s
  case inr.inr.inr.inr.inr => exact hstore
  all_goals exact absurd h (by decide)

/-- The first error of a render is recorded with its code (R224). -/
theorem recordError_of_no_err {c : ErrorCode} {s : State} (h : s.status.err = false) :
    recordError c s = s.withErrorCode (errorNumber c) := by
  rw [recordError, Status.record_of_no_err h, State.withErrorCode]

/-! ### Port reads (R53) -/

/-- No index reads the host's side of the port. -/
theorem portRead_port (s : State) (pending : List Transaction) (hostReads : List Word) (j : RegIndex) :
    portRead { s with pending, hostReads } j = portRead s j := rfl

theorem portRead_deliverRead (idx : RegIndex) (s : State) : portRead (deliverRead idx s) = portRead s := rfl

/-- A run of reads adds what each index reads as in the starting state: no read changes what the next one sees. -/
theorem runHost_reads (idxs : List RegIndex) (s : State) :
    runHost (idxs.map .read) s =
      .next { s with pending := [], hostReads := s.hostReads ++ idxs.map (portRead s) } := by
  induction idxs generalizing s with
  | nil => rw [List.map_nil, List.map_nil, List.append_nil]; exact runHost_nil s
  | cons idx idxs ih =>
    have hread : transact (.read idx) { s with pending := idxs.map .read } =
        .next (deliverRead idx { s with pending := idxs.map .read }) := rfl
    rw [List.map_cons, runHost_cons hread, ih, portRead_deliverRead, deliverRead_hostReads, List.append_assoc]
    rfl

/-! ### Runs (R60, R259) -/

/-- Any number of steps completes, each taking one transaction off the host's list while there is one. -/
theorem run_completes (n : Nat) (s : State) :
    ∃ t : State, Sys2Proof.core.run n s = .next t ∧ t.pending = s.pending.drop n := by
  induction n generalizing s with
  | zero => exact ⟨s, run_zero s, rfl⟩
  | succ n ih =>
    cases hp : s.pending with
    | nil =>
      obtain ⟨t, hrun, hpending⟩ := ih s
      exact ⟨t, (run_succ (step_idle hp)).trans hrun, by rw [hpending, hp, List.drop_nil, List.drop_nil]⟩
    | cons tr rest =>
      obtain ⟨u, hu, hrest⟩ := transact_next tr { s with pending := rest }
      obtain ⟨t, hrun, hpending⟩ := ih u
      exact ⟨t, (run_succ ((step_transact hp).trans hu)).trans hrun, by rw [hpending, hrest, List.drop_succ_cons]⟩

/-! ### The obligations -/

/-- Settles O6: a step is idle or its transaction, which completes; runs by induction on the number of steps. -/
theorem everyTransactionCompletes : Obligations.EveryTransactionCompletes := by
  refine ⟨fun s => step_idle, fun s tr rest hp => ?_, run_completes⟩
  obtain ⟨t, ht, hrest⟩ := transact_next tr { s with pending := rest }
  exact ⟨t, ht, (step_transact hp).trans ht, hrest⟩

/-- Settles O7: the step is the port store, and `portRead_portStore` says what each index then reads as. -/
theorem operandWritesStoreAndTouchNothingElse : Obligations.OperandWritesStoreAndTouchNothingElse := by
  intro s v rest
  refine ⟨fun hp => step_write hp (by decide), fun hp => step_write hp (by decide), fun hp => step_write hp (by decide),
    fun hp => step_write hp (by decide), fun hp => step_write hp (by decide), fun idx hp hlow hhigh => ?_⟩
  have hidx : idx ≠ 0x0 := by rintro rfl; exact absurd hlow (by decide)
  obtain ⟨hpending, hreads⟩ := portStore_port idx v { s with pending := rest }
  refine ⟨_, step_write hp hidx, ?_, fun j hj => ?_, hpending, hreads⟩
  · rw [portRead_portStore hlow hhigh, if_pos rfl]
  · rw [portRead_portStore hlow hhigh, if_neg hj, portRead_port]

/-- Settles O8: the step records BAD_ACCESS, which writes STATUS only while no error stands. -/
theorem otherWritesRecordBadAccess : Obligations.OtherWritesRecordBadAccess := by
  intro s idx v rest hp hidx
  have h0 : idx ≠ 0x0 := by rintro rfl; exact absurd hidx (by decide)
  rw [step_write hp h0, portStore_badAccess hidx]
  exact ⟨fun hok => congrArg _ (recordError_of_no_err hok), fun herr => congrArg _ (recordError_of_err herr)⟩

/-- Settles O9: each index reads as its register, and a run of reads by induction on the reads. -/
theorem readsReturnTheRegistersAndChangeNone : Obligations.ReadsReturnTheRegistersAndChangeNone :=
  ⟨fun _ => ⟨rfl, rfl, rfl, rfl, rfl, rfl, rfl, rfl, rfl⟩, runHost_reads⟩

end Sys2Proof.Machine

/-! PROOFS. The statements about the encoding (30_encoding.md): the decoder and the encoder are inverse to each other, a word
is a command exactly when its fields are legal, what a word that is no command does, and the obligations O1 to O4. -/

namespace Sys2Proof

/-! ### Decoder and encoder (R72, R73) -/

/-- Every command's word stands in the opcode table (R73). -/
theorem decode_encode (i : Instr) : decode (encode i) = .ok i := by cases i <;> decide

theorem decode_eq_ok_iff {w : Word} {i : Instr} : decode w = .ok i ↔ w = encode i :=
  ⟨Machine.eq_encode_of_decode_ok, fun h => h ▸ decode_encode i⟩

/-- A word that is no command's is rejected (R72). -/
theorem decode_eq_illegal {w : Word} (h : ∀ i, w ≠ encode i) : decode w = .error .illegal := by
  cases hd : decode w with
  | ok i => exact absurd (decode_eq_ok_iff.1 hd) (h i)
  | error e => cases e; rfl

/-! ### The fields of a word (R71) -/

/-- A word is its fields laid side by side. -/
theorem wordOfFields_fieldsOfWord (w : Word) : wordOfFields (fieldsOfWord w) = w := by
  dsimp only [wordOfFields, fieldsOfWord]
  rw [BitVec.extractLsb'_append_extractLsb'_eq_extractLsb' (show 7 = 6 + 1 from rfl),
    BitVec.extractLsb'_append_extractLsb'_eq_extractLsb' (show 6 = 4 + 2 from rfl),
    BitVec.extractLsb'_append_extractLsb'_eq_extractLsb' (show 4 = 0 + 4 from rfl)]
  exact BitVec.extractLsb'_eq_self

theorem encodedFields (i : Instr) : Laws.EncodedFields.Statement i := by
  cases i with
  | nop => exact Laws.EncodedFields.nop
  | initSil => exact Laws.EncodedFields.initSil
  | initSine => exact Laws.EncodedFields.initSine
  | initSqr => exact Laws.EncodedFields.initSqr
  | initNoise => exact Laws.EncodedFields.initNoise
  | initNoiseS => exact Laws.EncodedFields.initNoiseS
  | sample => exact Laws.EncodedFields.sample
  | quant => exact Laws.EncodedFields.quant
  | sampleq => exact Laws.EncodedFields.sampleq

theorem fieldsOfWord_encode (i : Instr) : fieldsOfWord (encode i) = i.fields := (encodedFields i).1

theorem wellFormed_fields (i : Instr) : i.fields.wellFormed = true := fieldsOfWord_encode i ▸ (encodedFields i).2

/-- A word is a command's exactly when its fields are the command's. -/
theorem eq_encode_iff {w : Word} {i : Instr} : w = encode i ↔ fieldsOfWord w = i.fields := by
  constructor
  · rintro rfl
    exact fieldsOfWord_encode i
  · intro h
    rw [← wordOfFields_fieldsOfWord w, h, encode]

/-! ### Legal fields (R71, R75, R77) -/

theorem Fields.wellFormed_iff {f : Fields} : f.wellFormed = true ↔
    f.op.toNat ≤ 4 ∧ (f.op ≠ 1 → f.kind = 0) ∧ (¬ (f.op = 1 ∧ f.kind = 3) → f.mode = 0) ∧ f.rsv = 0 := by
  simp only [wellFormed, opLegal, kindLegal, modeLegal, rsvLegal, Bool.and_eq_true, Bool.or_eq_true, beq_iff_eq,
    decide_eq_true_eq, or_iff_not_imp_left, and_assoc]
  rfl

theorem op_cases : ∀ {op : BitVec 4}, op.toNat ≤ 4 → op = 0 ∨ op = 1 ∨ op = 2 ∨ op = 3 ∨ op = 4 := by decide

theorem kind_cases : ∀ kind : BitVec 2, kind = 0 ∨ kind = 1 ∨ kind = 2 ∨ kind = 3 := by decide

theorem mode_cases : ∀ mode : BitVec 1, mode = 0 ∨ mode = 1 := by decide

/-- Legal fields are a command's: OP chooses it, for INIT with KIND, and for INIT with KIND 3 with MODE (R73). -/
theorem Fields.exists_instr_of_wellFormed {f : Fields} (h : f.wellFormed = true) : ∃ i : Instr, f = i.fields := by
  obtain ⟨op, kind, mode, rsv⟩ := f
  obtain ⟨hop, hkind, hmode, rfl⟩ := Fields.wellFormed_iff.1 h
  dsimp only at hop hkind hmode
  obtain rfl | rfl | rfl | rfl | rfl := op_cases hop
  case inr.inl =>
    obtain rfl | rfl | rfl | rfl := kind_cases kind
    case inr.inr.inr =>
      obtain rfl | rfl := mode_cases mode
      · exact ⟨.initNoise, rfl⟩
      · exact ⟨.initNoiseS, rfl⟩
    all_goals obtain rfl := hmode (by decide)
    · exact ⟨.initSil, rfl⟩
    · exact ⟨.initSine, rfl⟩
    · exact ⟨.initSqr, rfl⟩
  all_goals
    obtain rfl := hkind (by decide)
    obtain rfl := hmode (by decide)
  · exact ⟨.nop, rfl⟩
  · exact ⟨.sample, rfl⟩
  · exact ⟨.quant, rfl⟩
  · exact ⟨.sampleq, rfl⟩

/-- The decoder accepts a word exactly when the word's fields pass every check of R77. -/
theorem exists_decode_iff_wellFormed {w : Word} : (∃ i, decode w = .ok i) ↔ (fieldsOfWord w).wellFormed = true := by
  simp only [decode_eq_ok_iff, eq_encode_iff]
  constructor
  · rintro ⟨i, h⟩
    rw [h]
    exact wellFormed_fields i
  · exact Fields.exists_instr_of_wellFormed

end Sys2Proof

namespace Sys2Proof.Machine

/-! ### Commands on the port (R90) -/

/-- A word that is no command records ILLEGAL_CMD and does nothing else. -/
theorem executeCommand_illegal {w : Word} (h : ∀ i, w ≠ encode i) (s : State) :
    executeCommand w s = .next (recordError .illegalCmd s) := by
  unfold executeCommand; rw [decode_eq_illegal h]

/-- A step that performs a CMD write executes its word. -/
theorem step_cmdWrite {s : State} {w : Word} {rest : List Transaction} (hp : s.pending = .write 0x0 w :: rest) :
    step s = executeCommand w { s with pending := rest } :=
  step_transact hp

/-! ### The obligations -/

/-- Settles O2: every command's word is in the opcode table, and the table holds no other word. -/
theorem decodeAndEncodeAgree : Obligations.DecodeAndEncodeAgree :=
  ⟨decode_encode, fun _ _ => decode_eq_ok_iff.1⟩

/-- Settles O3: legal fields are a command's, and a word is determined by its fields. -/
theorem commandsAreExactlyTheLegalFields : Obligations.CommandsAreExactlyTheLegalFields :=
  fun _ => exists_decode_iff_wellFormed.trans Fields.wellFormed_iff

/-- Settles O4: the step records ILLEGAL_CMD, which writes STATUS only while no error stands. -/
theorem otherWordsFailWithIllegalCmd : Obligations.OtherWordsFailWithIllegalCmd := by
  intro w s rest hw hp
  rw [step_cmdWrite hp, executeCommand_illegal hw]
  exact ⟨decode_eq_illegal hw, fun hok => congrArg _ (recordError_of_no_err hok),
    fun herr => congrArg _ (recordError_of_err herr)⟩

/-- Settles O1: each row's word is its command's, which decodes to it and carries its fields. -/
theorem nineWordsDecodeToTheirCommands : Obligations.NineWordsDecodeToTheirCommands := by
  intro row hrow
  have hfields : row.1 = encode row.2.1 ∧
      row.2.1.fields = { op := row.2.2.1, kind := row.2.2.2.1, mode := row.2.2.2.2, rsv := 0 } := by
    simp only [List.mem_cons, List.not_mem_nil, or_false] at hrow
    rcases hrow with rfl | rfl | rfl | rfl | rfl | rfl | rfl | rfl | rfl <;> exact ⟨rfl, rfl⟩
  obtain ⟨hword, hfields⟩ := hfields
  exact ⟨decode_eq_ok_iff.2 hword, hword.symm, (eq_encode_iff.1 hword).trans hfields⟩

end Sys2Proof.Machine

/-! PROOFS. The statements about the commands and the generator (40_generator.md): which register words a voice and a sample
accept, what INIT and SAMPLE change, the bounds of an amplitude, and the obligations O5, O13 to O20, O24 to O26
and O47. -/

namespace Sys2Proof.Machine

/-! ### The words SAMPLE and INIT accept (R99 to R101) -/

/-- The words of legal phases, times and SINE frequencies: the finite values not below zero, -0.0 among them. -/
theorem phaseOK_ofBits_iff (x : Word) :
    phaseOK (F64.ofBits x) = true ↔ x.toNat ≤ 0x7FEFFFFFFFFFFFFF ∨ x = NZERO := by
  have hlt := x.isLt
  have hnzero : x = NZERO ↔ x.toNat = 2 ^ 63 := BitVec.toNat_inj.symm
  have hinf : infCode = 0x7FEFFFFFFFFFFFFF + 1 := by decide
  rw [hnzero]
  by_cases hfin : x.toNat % 2 ^ 63 < infCode
  · have hmag := magOfCode_pos (c := x.toNat % 2 ^ 63)
    rw [ofBits_of_finite hfin, phaseOK_fin, decide_eq_false_iff_not]
    omega
  · have hinfinite : ¬ phaseOK (F64.ofBits x) = true := fun h =>
      hfin ((ofBits_finite_iff x).1 (Bool.and_eq_true_iff.1 h).1)
    exact iff_of_false hinfinite (by omega)

/-- A SINE voice's frequencies are the finite values not below zero (R99). -/
theorem freqOK_sine_eq_phaseOK (f : F64) : freqOK .sine f = phaseOK f := by
  cases f with
  | nan b => rfl
  | inf s => rfl
  | fin s m =>
    rw [Bool.eq_iff_iff, phaseOK_fin, freqOK, isFinite_fin, Bool.true_and, f64Zero_eq, le64_fin_true, signedMag_zero]
    cases s <;> simp

theorem isFinite_ofBits_iff_exponent (x : Word) : isFinite (F64.ofBits x) = true ↔ x.extractLsb' 52 11 ≠ 0x7FF := by
  have hexp : x.extractLsb' 52 11 = 0x7FF ↔ x.toNat / 2 ^ 52 % 2 ^ 11 = 2047 := by
    rw [← BitVec.toNat_inj, BitVec.extractLsb'_toNat, Nat.shiftRight_eq_div_pow]; rfl
  have hinf : infCode = 2047 * 2 ^ 52 := rfl
  rw [ofBits_finite_iff, Ne, hexp]
  omega

/-- The words of the finite values above zero are the codes from 1 up to infinity's. -/
theorem ofBits_gt_zero_iff (x : Word) :
    (isFinite (F64.ofBits x) && gt64 (F64.ofBits x) f64Zero) = true ↔ 0 < x.toNat ∧ x.toNat < infCode := by
  have hlt := x.isLt
  have hinf := infCode_lt
  by_cases hfin : x.toNat % 2 ^ 63 < infCode
  · have hmag := magOfCode_pos (c := x.toNat % 2 ^ 63)
    rw [ofBits_of_finite hfin, isFinite_fin, Bool.true_and, gt64_def, f64Zero_eq, lt64_fin_true, signedMag_zero]
    by_cases hsign : 2 ^ 63 ≤ x.toNat
    · rw [decide_eq_true hsign, signedMag_true]; omega
    · rw [decide_eq_false hsign, signedMag_false]; omega
  · have hinfinite : ¬ (isFinite (F64.ofBits x) && gt64 (F64.ofBits x) f64Zero) = true := fun h =>
      hfin ((ofBits_finite_iff x).1 (Bool.and_eq_true_iff.1 h).1)
    exact iff_of_false hinfinite (by omega)

/-- The value of a code below infinity's. -/
theorem ofBits_of_lt_infCode {x : Word} (h : x.toNat < infCode) : F64.ofBits x = .fin false (magOfCode x.toNat) := by
  have hinf := infCode_lt
  have hcode : x.toNat % 2 ^ 63 = x.toNat := Nat.mod_eq_of_lt (by omega)
  rw [ofBits_of_finite (by omega), hcode, decide_eq_false (by omega)]

/-- Up to 2^53 units every integer is on the grid, as its own code. -/
theorem magOfCode_small {c : Nat} (h : c ≤ 2 ^ 53) : magOfCode c = c := by
  simpa using magOfCode_pack (k := 0) (.inl rfl) h

theorem lt_magOfCode_iff {a c : Nat} (h : a ≤ 2 ^ 53) : a < magOfCode c ↔ a < c := by
  rw [← magOfCode_strictMono.lt_iff_lt (b := c), magOfCode_small h]

/-- A reciprocal is finite exactly above 2^50 units: there 1/f is below the overflow bound (R99). -/
theorem isFinite_reciprocal_iff {m : Nat} (hm : 0 < m) :
    isFinite (div64 f64One (.fin false m)) = true ↔ 2 ^ 50 < m := by
  have hunits : unitsOfOne * unitsOfOne = 2 ^ 104 * 2 ^ 2044 := by decide +kernel
  rw [f64One_eq, div64_fin hm.ne', isFinite_roundTo, roundCode_lt_infCode_iff hm, overflowUnits, hunits, ← mul_assoc,
    Nat.mul_lt_mul_right (Nat.two_pow_pos 2044)]
  omega

/-- Twice a grid point is on the grid, and below infinity exactly when the point is below the top binade. -/
theorem magOfCode_double (c : Nat) :
    ∃ d, magOfCode d = 2 * magOfCode c ∧ (d < infCode ↔ c + 2 ^ 52 < infCode) := by
  have hinf : infCode = 2047 * 2 ^ 52 := rfl
  obtain hsub | hnorm := Nat.lt_or_ge c (2 ^ 52)
  · exact ⟨2 * c, by rw [magOfCode_small (by omega), magOfCode_small (by omega)], by omega⟩
  · obtain ⟨m, k, rfl, hlo, hhi, -⟩ := code_unpack c
    refine ⟨m + k * 2 ^ 52 + 2 ^ 52, ?_, Iff.rfl⟩
    have hnext : m + k * 2 ^ 52 + 2 ^ 52 = m + (k + 1) * 2 ^ 52 := by omega
    rw [hnext, magOfCode_pack (.inr (by omega)) hhi.le, magOfCode_pack hlo hhi.le, Nat.pow_succ]
    ring

/-- Doubling a grid point is exact, or overflows from the top binade on (R99). -/
theorem mul64_two (c : Nat) :
    (isFinite (mul64 (.fin false (magOfCode c)) f64Two) = true ↔ c + 2 ^ 52 < infCode) ∧
    (c + 2 ^ 52 < infCode → mul64 (.fin false (magOfCode c)) f64Two = .fin false (2 * magOfCode c)) := by
  obtain ⟨d, hd, hlt⟩ := magOfCode_double c
  have hexact : magOfCode c * (2 * unitsOfOne) = unitsOfOne * magOfCode d := by rw [hd]; ring
  rw [f64Two_eq, mul64_fin, isFinite_roundTo, roundCode_eq_of_exact unitsOfOne_pos hexact, ← hlt]
  exact ⟨Iff.rfl, fun h => by rw [roundTo_exact unitsOfOne_pos h hexact, hd]; rfl⟩

theorem freqOK_square_iff (x : Word) :
    freqOK .square (F64.ofBits x) = true ↔ 2 ^ 50 < x.toNat ∧ x.toNat < infCode := by
  rw [freqOK, Bool.and_eq_true, ofBits_gt_zero_iff]
  constructor
  · rintro ⟨⟨hpos, hlt⟩, hrecip⟩
    rw [ofBits_of_lt_infCode hlt, isFinite_reciprocal_iff (magOfCode_pos.2 hpos),
      lt_magOfCode_iff (by decide)] at hrecip
    exact ⟨hrecip, hlt⟩
  · rintro ⟨hlow, hlt⟩
    have hpos : 0 < x.toNat := by omega
    rw [ofBits_of_lt_infCode hlt, isFinite_reciprocal_iff (magOfCode_pos.2 hpos), lt_magOfCode_iff (by decide)]
    exact ⟨⟨hpos, hlt⟩, hlow⟩

theorem freqOK_noise_iff (x : Word) :
    freqOK .noise (F64.ofBits x) = true ↔ 2 ^ 49 < x.toNat ∧ x.toNat + 2 ^ 52 < infCode := by
  rw [freqOK, Bool.and_eq_true, Bool.and_eq_true, ofBits_gt_zero_iff]
  have hbits := ofBits_of_lt_infCode (x := x)
  obtain ⟨hfin, hdouble⟩ := mul64_two x.toNat
  have hrecip : 0 < x.toNat →
      (isFinite (div64 f64One (.fin false (2 * magOfCode x.toNat))) = true ↔ 2 ^ 49 < x.toNat) := fun hpos => by
    have hmag := magOfCode_pos.2 hpos
    rw [isFinite_reciprocal_iff (by omega), ← lt_magOfCode_iff (a := 2 ^ 49) (by decide)]
    omega
  constructor
  · rintro ⟨⟨⟨hpos, hlt⟩, hmul⟩, hdiv⟩
    rw [hbits hlt, hfin] at hmul
    rw [hbits hlt, hdouble hmul, hrecip hpos] at hdiv
    exact ⟨hdiv, hmul⟩
  · rintro ⟨hlow, hhigh⟩
    rw [hbits (by omega), hfin, hdouble hhigh, hrecip (by omega)]
    exact ⟨⟨⟨by omega, by omega⟩, hhigh⟩, hlow⟩

/-! ### The periods of a latched frequency (R140, R161) -/

/-- A frequency a SQUARE voice accepts has a finite period of at least two units, so that half of it is above zero. -/
theorem squarePeriod_of_freqOK {x : Word} (h : freqOK .square (F64.ofBits x) = true) :
    ∃ c, 2 ≤ c ∧ c < infCode ∧ squarePeriod (F64.ofBits x) = .fin false (magOfCode c) := by
  have hrecip : isFinite (div64 f64One (F64.ofBits x)) = true := (Bool.and_eq_true_iff.1 h).2
  obtain ⟨hlow, hlt⟩ := (freqOK_square_iff x).1 h
  have hpos : 0 < magOfCode x.toNat := magOfCode_pos.2 (by omega)
  rw [ofBits_of_lt_infCode hlt, f64One_eq, div64_fin hpos.ne', isFinite_roundTo] at hrecip
  rw [squarePeriod, ofBits_of_lt_infCode hlt, f64One_eq, div64_fin hpos.ne', roundTo_finite hrecip]
  refine ⟨_, le_roundCode_of_le hpos ?_, hrecip, rfl⟩
  calc magOfCode x.toNat * magOfCode 2 ≤ magOfCode infCode * magOfCode 2 :=
        Nat.mul_le_mul_right _ (magOfCode_strictMono.monotone hlt.le)
    _ ≤ unitsOfOne * unitsOfOne := by decide +kernel

/-- Half of a finite value of at least two units is finite and above zero. -/
theorem half_of_two_le {c : Nat} (h2 : 2 ≤ c) (hc : c < infCode) :
    ∃ d, 0 < d ∧ div64 (.fin false (magOfCode c)) f64Two = .fin false (magOfCode d) := by
  have htwo : 0 < 2 * unitsOfOne := Nat.mul_pos (by decide) unitsOfOne_pos
  have hlow : 2 * unitsOfOne * magOfCode 1 ≤ magOfCode c * unitsOfOne := by
    have hmag : magOfCode 2 ≤ magOfCode c := magOfCode_strictMono.monotone h2
    rw [magOfCode_small (by decide)] at hmag ⊢
    rw [Nat.mul_one]
    exact Nat.mul_le_mul_right _ hmag
  have hhigh : magOfCode c * unitsOfOne ≤ 2 * unitsOfOne * magOfCode c := by
    rw [Nat.mul_comm]
    exact Nat.mul_le_mul_right _ (by omega)
  rw [f64Two_eq, div64_fin htwo.ne', roundTo_finite ((roundCode_le_of_le htwo hhigh).trans_lt hc)]
  exact ⟨_, le_roundCode_of_le htwo hlow, rfl⟩

theorem fin_gt_zero {c : Nat} (hc : 0 < c) : gt64 (.fin false (magOfCode c)) f64Zero = true := by
  rw [gt64_def, f64Zero_eq, lt64_fin_true]
  exact Int.ofNat_lt.2 (magOfCode_pos.2 hc)

/-! ### Commands with and without an error (R90, R91) -/

/-- The word of a command runs it. -/
theorem executeCommand_of_decode {w : Word} {i : Instr} (h : decode w = .ok i) (s : State) :
    executeCommand w s = exec i s := by
  unfold executeCommand; rw [h]

/-- With an error recorded every command but INIT is refused and changes nothing (R91). -/
theorem exec_of_err {i : Instr} {s : State} (herr : s.status.err = true) (hi : isInit i = false) :
    exec i s = .next s := by
  have hgate (run : State) : unlessError s run = s := if_pos herr
  cases i with
  | nop => rfl
  | sample => exact congrArg _ (hgate _)
  | quant => exact congrArg _ (hgate _)
  | sampleq => exact congrArg _ (hgate _)
  | initSil | initSine | initSqr | initNoise | initNoiseS => cases hi

/-! ### SAMPLE (R101) -/

theorem sampleBody_of_ok {s : State} {r : Sampled} (h : sampleVoice s = .ok r) : sampleBody s = commitSample r s := by
  unfold sampleBody; rw [h]

theorem sampleBody_of_error {s : State} {c : ErrorCode} (h : sampleVoice s = .error c) :
    sampleBody s = recordError c s := by
  unfold sampleBody; rw [h]

theorem sampleVoice_invalidTime {s : State} (h : timeOK (timeOperand s) = false) :
    sampleVoice s = .error .invalidTime := by
  simp [sampleVoice, h]

theorem sampleVoice_silence {s : State} (h : timeOK (timeOperand s) = true) (hk : s.voice.kind = .silence) :
    sampleVoice s = .ok (statelessSample PZERO s) := by
  simp [sampleVoice, h, hk]

/-- What SAMPLE answers: the state it is refused in, its error recorded, or its sample committed. -/
theorem exec_sample_cases {s t : State} (h : exec .sample s = .next t) :
    (s.status.err = true ∧ t = s) ∨
    (s.status.err = false ∧ ∃ c, sampleVoice s = .error c ∧ t = recordError c s) ∨
    (s.status.err = false ∧ ∃ r, sampleVoice s = .ok r ∧ t = commitSample r s) := by
  cases herr : s.status.err with
  | true =>
    rw [exec_of_err herr rfl] at h
    cases h
    exact .inl ⟨rfl, rfl⟩
  | false =>
    rw [exec_sample herr] at h
    cases h
    cases hr : sampleVoice s with
    | error c => exact .inr (.inl ⟨rfl, c, rfl, sampleBody_of_error hr⟩)
    | ok r => exact .inr (.inr ⟨rfl, r, rfl, sampleBody_of_ok hr⟩)

/-- A SAMPLE that leaves no error has committed its sample. -/
theorem exec_sample_completed {s t : State} (h : exec .sample s = .next t) (hok : t.status.err = false) :
    ∃ r, sampleVoice s = .ok r ∧ t = commitSample r s := by
  obtain ⟨herr, rfl⟩ | ⟨-, c, -, rfl⟩ | ⟨-, hr⟩ := exec_sample_cases h
  · rw [herr] at hok; cases hok
  · rw [recordError_status, Status.record_err] at hok; cases hok
  · exact hr

/-- Neither AMP nor STATUS is read by a sample. -/
theorem sampleVoice_amp_status (s : State) (amp : Word) (status : Status) :
    sampleVoice { s with amp, status } = sampleVoice s := rfl

/-- On a voice that is not NOISE a sample writes AMP and EDGE alone. -/
theorem commitSample_stateless {s : State} {r : Sampled} (h : sampleVoice s = .ok r) (hk : s.voice.kind ≠ .noise) :
    commitSample r s = { s with amp := r.amp, status := s.status.setEdge false } := by
  obtain ⟨hedge, hlfsr, hphase⟩ := sampleVoice_stateless h hk
  rw [commitSample, hedge, hlfsr, hphase]

/-- Two states with the same sample and the same ERR fail or complete together, with the same amplitude. -/
theorem sampleBody_congr {s t : State} (hv : sampleVoice t = sampleVoice s) (herr : t.status.err = s.status.err) :
    (sampleBody t).status.err = (sampleBody s).status.err ∧
      ((sampleBody s).status.err = false → (sampleBody t).amp = (sampleBody s).amp) := by
  cases hr : sampleVoice s with
  | error c =>
    rw [sampleBody_of_error hr, sampleBody_of_error (hv.trans hr)]
    simp
  | ok r =>
    rw [sampleBody_of_ok hr, sampleBody_of_ok (hv.trans hr)]
    exact ⟨herr, fun _ => rfl⟩

/-! ### The bounds of an amplitude (R103) -/

/-- The magnitude of a finite register is that of its code. -/
theorem abs_toRat_ofBits {x : Word} (h : isFinite (F64.ofBits x) = true) :
    |(F64.ofBits x).toRat| = (magOfCode (x.toNat % 2 ^ 63) : ℚ) / 2 ^ 1074 := by
  rw [ofBits_of_finite ((ofBits_finite_iff x).1 h), abs_toRat_fin]

/-- Inverting the sign bit keeps the magnitude (R10). -/
theorem abs_toRat_neg64 {x : Word} (h : isFinite (F64.ofBits x) = true) :
    |(F64.ofBits (neg64 x)).toRat| = |(F64.ofBits x).toRat| := by
  have hcode : (neg64 x).toNat % 2 ^ 63 = x.toNat % 2 ^ 63 := by
    rw [neg64, BitVec.toNat_xor, Nat.xor_mod_two_pow]
    exact Nat.xor_zero _
  rw [abs_toRat_ofBits h, abs_toRat_ofBits ((isFinite_neg64 x).trans h), hcode]

theorem abs_toRat_ONE : |(F64.ofBits ONE).toRat| = 1 := by
  change |f64One.toRat| = 1
  rw [f64One_eq, abs_toRat_fin, unitsOfOne_cast, div_self unit_pos.ne']

theorem abs_toRat_MINUS_ONE : |(F64.ofBits MINUS_ONE).toRat| = 1 := by
  change |f64MinusOne.toRat| = 1
  rw [f64MinusOne_eq, abs_toRat_fin, unitsOfOne_cast, div_self unit_pos.ne']

/-- A sine of a finite argument times a finite volume has at most the volume's magnitude (R14, R103). -/
theorem abs_toRat_sine_le {x : F64} {v : Word} (hx : isFinite x = true) (hv : isFinite (F64.ofBits v) = true) :
    |(F64.ofBits (mul64 (sin64 x) (F64.ofBits v)).toBits).toRat| ≤ |(F64.ofBits v).toRat| := by
  obtain ⟨s, m, rfl⟩ := isFinite_iff.1 hx
  obtain ⟨t, n, hsin, hn, -⟩ := sin64_fin s m
  obtain ⟨u, c, hc, hv⟩ := ofBits_finite hv
  obtain ⟨d, hd, hround⟩ := roundTo_le (neg := t ^^ u) unitsOfOne_pos hc (Nat.mul_le_mul_right (magOfCode c) hn)
  rw [hsin, hv, mul64_fin, ofBits_toBits (roundTo_representable _ _ _), hround, abs_toRat_fin, abs_toRat_fin,
    div_le_div_iff_of_pos_right unit_pos, Nat.cast_le]
  exact magOfCode_strictMono.monotone hd

theorem noiseAmp_cases (b : Lfsr) : noiseAmp b = ONE ∨ noiseAmp b = MINUS_ONE := by
  unfold noiseAmp; split <;> simp

theorem squareAmp_cases (s : State) : squareAmp s = s.volL ∨ squareAmp s = neg64 s.volL := by
  unfold squareAmp; split <;> simp

/-- The amplitude of a completed sample, kind by kind. -/
theorem sampleVoice_amp_bounds {s : State} {r : Sampled} (hvol : volOK s.voice.kind (volLOperand s) = true)
    (h : sampleVoice s = .ok r) :
    (s.voice.kind = .silence ∧ r.amp = PZERO) ∨
    (s.voice.kind = .sine ∧ |(F64.ofBits r.amp).toRat| ≤ |(F64.ofBits s.volL).toRat|) ∨
    (s.voice.kind = .square ∧ isFinite (F64.ofBits s.volL) = true ∧ (r.amp = s.volL ∨ r.amp = neg64 s.volL)) ∨
    (s.voice.kind = .noise ∧ (r.amp = ONE ∨ r.amp = MINUS_ONE)) := by
  obtain ⟨-, ⟨hk, rfl⟩ | ⟨hk, harg, rfl⟩ | ⟨hk, rfl⟩ | ⟨hk, rfl⟩⟩ := sampleVoice_ok h
  · exact .inl ⟨hk, rfl⟩
  · rw [hk] at hvol; exact .inr (.inl ⟨hk, abs_toRat_sine_le harg hvol⟩)
  · rw [hk] at hvol; exact .inr (.inr (.inl ⟨hk, hvol, squareAmp_cases s⟩))
  · exact .inr (.inr (.inr ⟨hk, noiseAmp_cases _⟩))

/-! ### The obligations -/

/-- Settles O15: a code grows with its value, so each check, 1/f and 2f finite among them, bounds the word. -/
theorem frequencyRangesOfEachKind : Obligations.FrequencyRangesOfEachKind := by
  intro x
  have hinf : infCode = 0x7FEFFFFFFFFFFFFF + 1 := by decide
  rw [freqOK_sine_eq_phaseOK, freqOK_square_iff, freqOK_noise_iff, hinf]
  exact ⟨rfl, phaseOK_ofBits_iff x, by omega, by omega⟩

/-- Settles O16: finite is exponent field not all ones, and only SINE and SQUARE ask for it. -/
theorem volumeMustBeFiniteForSineAndSquare : Obligations.VolumeMustBeFiniteForSineAndSquare :=
  fun x => ⟨isFinite_ofBits_iff_exponent x, isFinite_ofBits_iff_exponent x, rfl, rfl⟩

/-- Settles O17: a period is at least two units, half of it at least one, and so is a noise voice's half period. -/
theorem latchedFrequenciesGivePositivePeriods : Obligations.LatchedFrequenciesGivePositivePeriods := by
  intro x
  constructor
  · intro h
    obtain ⟨c, h2, hc, hperiod⟩ := squarePeriod_of_freqOK h
    obtain ⟨d, hd, hhalf⟩ := half_of_two_le h2 hc
    rw [hperiod, hhalf]
    exact ⟨rfl, fin_gt_zero (by omega), rfl, fin_gt_zero hd⟩
  · intro h
    obtain ⟨c, hpos, -, hhalf⟩ := halfPeriod_of_freqOK h
    rw [hhalf]
    exact ⟨rfl, fin_gt_zero hpos⟩

/-- Settles O19: a legal time is a legal phase, and any other is the error of every kind's sample. -/
theorem sampleTakesExactlyTheLegalTimes : Obligations.SampleTakesExactlyTheLegalTimes := by
  refine ⟨fun x => ?_, fun s hok htime => ?_⟩
  · rw [timeOK_eq_phaseOK]; exact phaseOK_ofBits_iff x
  · rw [exec_sample hok, sampleBody_of_error (sampleVoice_invalidTime htime), recordError_of_no_err hok]
    rfl

/-- Settles O24: SAMPLE is refused, records its error or commits its sample, and each writes few registers. -/
theorem sampleFrame : Obligations.SampleFrame := by
  intro s t h
  obtain ⟨herr, rfl⟩ | ⟨-, c, -, rfl⟩ | ⟨hok, r, hr, rfl⟩ := exec_sample_cases h
  · simp [herr]
  · simp
  · have hstateless (hk : s.voice.kind ≠ .noise) := (sampleVoice_stateless hr hk).2
    simpa [hok] using hstateless

/-- Settles O25: on a stateless voice a sample writes AMP and STATUS alone, which no sample reads. -/
theorem statelessVoicesDoNotRememberSamples : Obligations.StatelessVoicesDoNotRememberSamples := by
  intro s t x hk hok h htok
  obtain ⟨r, hr, rfl⟩ := exec_sample_completed h htok
  rw [commitSample_stateless hr hk] at htok ⊢
  refine ⟨?_, _, _, exec_sample hok, exec_sample htok, sampleBody_congr rfl rfl⟩
  have hagain := (sampleVoice_amp_status s r.amp (s.status.setEdge false)).trans hr
  rw [exec_sample htok, sampleBody_of_ok hagain, commitSample_stateless hagain hk]
  rfl

/-- Settles O26: the amplitude is a constant, VOL_L up to its sign, or a value within [-1, 1] times VOL_L. -/
theorem amplitudesAreFiniteAndBounded : Obligations.AmplitudesAreFiniteAndBounded := by
  intro s t hinv _ h hok
  obtain ⟨r, hr, rfl⟩ := exec_sample_completed h hok
  refine ⟨sampleVoice_amp_finite hinv.volLatchedOK hr, ?_⟩
  rw [commitSample_amp]
  obtain ⟨hk, hamp⟩ | ⟨hk, hamp⟩ | ⟨hk, hfin, hamp⟩ | ⟨hk, hamp⟩ := sampleVoice_amp_bounds hinv.volLatchedOK hr
  · have hone : |(F64.ofBits r.amp).toRat| ≤ 1 := by
      rw [hamp, ofBits_PZERO, toRat_fin_eq_zero.2 rfl, abs_zero]; exact zero_le_one
    rw [hk]
    exact ⟨fun _ => hamp, nofun, nofun, nofun, fun _ => hone⟩
  · rw [hk]
    exact ⟨nofun, nofun, fun _ => hamp, nofun, hamp.trans⟩
  · have habs : |(F64.ofBits r.amp).toRat| = |(F64.ofBits s.volL).toRat| := by
      obtain he | he := hamp <;> rw [he]
      exact abs_toRat_neg64 hfin
    rw [hk]
    exact ⟨nofun, nofun, nofun, fun _ => hamp, habs.trans_le⟩
  · have hone : |(F64.ofBits r.amp).toRat| = 1 := by
      obtain he | he := hamp <;> rw [he]
      exacts [abs_toRat_ONE, abs_toRat_MINUS_ONE]
    rw [hk]
    exact ⟨nofun, fun _ => hamp, nofun, nofun, fun _ => hone.le⟩

/-- Settles O5: a CMD write executes its word, and the word of a command runs it. -/
theorem stepRunsTheDecodedCommand : Obligations.StepRunsTheDecodedCommand :=
  fun _ _ _ _ hp hw _ => (step_cmdWrite hp).trans (executeCommand_of_decode hw _)

/-- Settles O13: NOP is the zero word. -/
theorem nopChangesNoRegister : Obligations.NopChangesNoRegister := ⟨decode_encode .nop, fun _ => rfl⟩

/-- Settles O14: each INIT command is `Init` of its kind and mode, by its first failing check. -/
theorem initLatchesTheVoiceOrFails : Obligations.InitLatchesTheVoiceOrFails := by
  intro k m s hm
  rw [exec_initCommand hm]
  exact ⟨fun hf => congrArg _ (initVoice_badFreq hf), fun hf hv => congrArg _ (initVoice_badVol hf hv),
    fun hf hv => congrArg _ (initVoice_ok hf hv)⟩

/-- Settles O18: INIT latches the voice or replaces STATUS. -/
theorem initFrame : Obligations.InitFrame := by
  intro k m s t hm h
  rw [exec_initCommand hm] at h
  cases h
  obtain ⟨-, -, he⟩ | ⟨c, -, he⟩ := initVoice_cases k m s <;> rw [he] <;> simp

/-- Settles O20: the sample of a SILENCE voice is stateless, of +0.0. -/
theorem silenceSamplesZero : Obligations.SilenceSamplesZero := by
  intro s hok htime hk
  rw [exec_sample hok, sampleBody_of_ok (sampleVoice_silence htime hk)]
  rfl

/-- Settles O47: with ERR = 1 a command is refused unless it is INIT, and an illegal word records nothing. -/
theorem errorBlocksAllButInit : Obligations.ErrorBlocksAllButInit := by
  intro s herr
  refine ⟨exec_of_err herr rfl, exec_of_err herr rfl, exec_of_err herr rfl, exec_of_err herr rfl, fun w hw => ?_,
    fun k m hm hf hv => ?_⟩
  · rw [executeCommand_illegal hw, recordError_of_err herr]
  · exact ⟨_, (exec_initCommand hm s).trans (congrArg _ (initVoice_ok hf hv)), rfl, rfl⟩

end Sys2Proof.Machine

/-! PROOFS. The statements about a SINE voice (41_sine.md): what its sample is, the signed zeros of its formula, and the
obligations O21 and O28. -/

namespace Sys2Proof.Machine

/-! ### The sample of a SINE voice (R121) -/

theorem sampleVoice_sine {s : State} (htime : timeOK (timeOperand s) = true) (hk : s.voice.kind = .sine)
    (harg : isFinite (sineArg (timeOperand s) (freqLOperand s)) = true) :
    sampleVoice s = .ok (statelessSample
      (mul64 (sin64 (sineArg (timeOperand s) (freqLOperand s))) (volLOperand s)).toBits s) := by
  unfold sampleVoice sineAmp
  rw [if_pos htime, hk, if_pos harg]
  rfl

theorem sampleVoice_argOverflow {s : State} (htime : timeOK (timeOperand s) = true) (hk : s.voice.kind = .sine)
    (harg : isFinite (sineArg (timeOperand s) (freqLOperand s)) = false) :
    sampleVoice s = .error .argOverflow := by
  unfold sampleVoice sineAmp
  rw [if_pos htime, hk, harg]
  rfl

/-- Settles O21: the sample of a SINE voice is stateless, of the formula's value, or the error of its argument. -/
theorem sineSamplesTheFormula : Obligations.SineSamplesTheFormula := by
  intro s hok htime hk
  rw [exec_sample hok]
  constructor
  · intro harg
    rw [sampleBody_of_ok (sampleVoice_sine htime hk harg)]
    rfl
  · intro harg
    rw [sampleBody_of_error (sampleVoice_argOverflow htime hk harg), recordError_of_no_err hok]
    rfl

/-! ### Signs, zeros and infinities in a product (R9, R10) -/

/-- A finite register's sign is its bit 63. -/
theorem ofBits_finite_sign {x : Word} (h : isFinite (F64.ofBits x) = true) :
    ∃ m, F64.ofBits x = .fin (x.getLsbD 63) m := by
  have hsign : decide (2 ^ 63 ≤ x.toNat) = x.getLsbD 63 :=
    (BitVec.msb_eq_decide x).symm.trans (BitVec.msb_eq_getLsbD_last x)
  exact ⟨_, hsign ▸ ofBits_of_finite ((ofBits_finite_iff x).1 h)⟩

theorem isZeroWord_iff {x : Word} : isZeroWord x = true ↔ x = PZERO ∨ x = NZERO := by
  simp [isZeroWord]

theorem ofBits_of_isZeroWord {x : Word} (h : isZeroWord x = true) : F64.ofBits x = .fin (x.getLsbD 63) 0 :=
  ofBits_of_zeroWord (isZeroWord_iff.1 h)

/-- The word of a zero is its sign bit alone. -/
theorem toBits_zero (s : Bool) : (F64.fin s 0).toBits = if s then NZERO else PZERO := by
  rw [toBits_fin, roundCode_zero]
  cases s <;> rfl

theorem isZeroWord_toBits_zero (s : Bool) : isZeroWord (F64.fin s 0).toBits = true := by
  rw [toBits_zero]
  cases s <;> rfl

/-- `SIN64` keeps a zero and its sign (R14). -/
theorem sin64_zero (s : Bool) : sin64 (.fin s 0) = .fin s 0 := rfl

/-- A product with a factor that is not finite is an infinity or a NaN, whatever the other factor is. -/
theorem isFinite_mul64_of_left {a : F64} (h : isFinite a = false) (b : F64) : isFinite (mul64 a b) = false := by
  cases a with
  | nan x => rfl
  | fin s m => cases h
  | inf s =>
    cases b with
    | nan y => rfl
    | inf t => rfl
    | fin t n => rw [mul64]; split <;> rfl

/-- A finite product has the exclusive-or of its factors' signs. -/
theorem mul64_fin_of_isFinite {s t : Bool} {m n : Nat} (h : isFinite (mul64 (.fin s m) (.fin t n)) = true) :
    ∃ k, mul64 (.fin s m) (.fin t n) = .fin (s ^^ t) k :=
  ⟨_, roundTo_finite (isFinite_roundTo.1 h)⟩

theorem f64TwoPi_positive : ∃ m, f64TwoPi = .fin false m := ofBits_finite_sign (x := TWO_PI) (by decide +kernel)

/-- An accepted time is finite (R101). -/
theorem isFinite_of_timeOK {t : F64} (h : timeOK t = true) : isFinite t = true := by
  rw [timeOK_eq_phaseOK] at h
  exact (Bool.and_eq_true_iff.1 h).1

/-- The latched operands of a SINE voice passed their checks, so both are finite (R99, R100). -/
theorem State.Inv.sine_operands_finite {s : State} (h : s.Inv) (hk : s.voice.kind = .sine) :
    isFinite (freqLOperand s) = true ∧ isFinite (volLOperand s) = true := by
  have hfreq := h.freqLatchedOK
  have hvol := h.volLatchedOK
  rw [hk] at hfreq hvol
  exact ⟨(Bool.and_eq_true_iff.1 hfreq).1, hvol⟩

/-! ### The argument and the amplitude at a zero (R95, R122) -/

theorem sineArg_zero_time (s : Bool) {t : Bool} {m : Nat} : sineArg (.fin s 0) (.fin t m) = .fin (s ^^ t) 0 := by
  obtain ⟨n, hpi⟩ := f64TwoPi_positive
  rw [sineArg, hpi, mul64_zero_left, mul64_zero_left, Bool.xor_false]

theorem sineArg_zero_freq {s : Bool} {m : Nat} (h : isFinite (mul64 (.fin s m) f64TwoPi) = true) (t : Bool) :
    sineArg (.fin s m) (.fin t 0) = .fin (s ^^ t) 0 := by
  obtain ⟨n, hpi⟩ := f64TwoPi_positive
  rw [hpi] at h
  obtain ⟨k, hfirst⟩ := mul64_fin_of_isFinite h
  rw [sineArg, hpi, hfirst, mul64_zero_right, Bool.xor_false]

/-- A zero argument keeps its sign through the sine and meets the volume's in the product. -/
theorem exec_sample_sine_zeroArg {s : State} {neg : Bool} (hok : s.status.err = false)
    (htime : timeOK (timeOperand s) = true) (hk : s.voice.kind = .sine) (hvol : isFinite (volLOperand s) = true)
    (harg : sineArg (timeOperand s) (freqLOperand s) = .fin neg 0) :
    exec .sample s = .next { s with
      amp := if neg ^^ s.volL.getLsbD 63 then NZERO else PZERO, status := { s.status with edge := false } } := by
  obtain ⟨m, hv⟩ := ofBits_finite_sign hvol
  have hamp : (mul64 (sin64 (sineArg (timeOperand s) (freqLOperand s))) (volLOperand s)).toBits =
      if neg ^^ s.volL.getLsbD 63 then NZERO else PZERO := by
    rw [harg, sin64_zero, volLOperand, hv, mul64_zero_left, toBits_zero]
  rw [exec_sample hok, sampleBody_of_ok (sampleVoice_sine htime hk (by rw [harg, isFinite_fin])), hamp]
  rfl

/-- With a zero volume a completed sample of a SINE voice is a zero. -/
theorem sampleVoice_sine_zeroVol {s : State} {r : Sampled} (h : sampleVoice s = .ok r) (hk : s.voice.kind = .sine)
    (hvol : isZeroWord s.volL = true) : isZeroWord r.amp = true := by
  obtain ⟨-, ⟨hk', -⟩ | ⟨-, harg, rfl⟩ | ⟨hk', -⟩ | ⟨hk', -⟩⟩ := sampleVoice_ok h
  case inr.inl =>
    obtain ⟨t, m, harg⟩ := isFinite_iff.1 harg
    obtain ⟨u, n, hsin, -, -⟩ := sin64_fin t m
    rw [statelessSample, harg, hsin, volLOperand, ofBits_of_isZeroWord hvol, mul64_zero_right]
    exact isZeroWord_toBits_zero _
  all_goals rw [hk] at hk'; cases hk'

/-- Settles O28: at a zero time, and at a zero frequency with a finite first product, the argument is a zero, its sign the
exclusive-or of both; a first product that is not finite leaves the argument so; a zero volume makes any product zero. -/
theorem sineCornerCases : Obligations.SineCornerCases := by
  intro s hinv hok hk
  obtain ⟨hfreq, hvol⟩ := hinv.sine_operands_finite hk
  refine ⟨fun hzero => ?_, fun hzero htime hfirst => ?_, fun hzero htime hfirst => ?_, fun hzero t ht htok => ?_⟩
  · have ht := ofBits_of_isZeroWord hzero
    obtain ⟨m, hf⟩ := ofBits_finite_sign hfreq
    refine exec_sample_sine_zeroArg hok ?_ hk hvol ?_
    · rw [timeOperand, ht, timeOK_eq_phaseOK, phaseOK_fin]; exact .inr rfl
    · rw [timeOperand, freqLOperand, ht, hf, sineArg_zero_time]
  · have hf := ofBits_of_isZeroWord hzero
    obtain ⟨m, ht⟩ := ofBits_finite_sign (isFinite_of_timeOK htime)
    refine exec_sample_sine_zeroArg hok htime hk hvol ?_
    rw [ht] at hfirst
    rw [timeOperand, freqLOperand, ht, hf, sineArg_zero_freq hfirst]
  · exact (sineSamplesTheFormula s hok htime hk).2 (isFinite_mul64_of_left hfirst _)
  · obtain ⟨r, hr, rfl⟩ := exec_sample_completed ht htok
    exact sampleVoice_sine_zeroVol hr hk hzero

end Sys2Proof.Machine

/-! PROOFS. The statements about a SQUARE voice (42_square.md): the range of its phase, its two halves, and the obligation
O22. -/

namespace Sys2Proof.Machine

/-! ### Finite values are ordered (R10) -/

/-- Between finite values the strict comparison is the negation of the other one turned around: neither is a NaN. -/
theorem lt64_eq_not_le64 {a b : F64} (ha : isFinite a = true) (hb : isFinite b = true) : lt64 a b = !le64 b a := by
  obtain ⟨s, m, rfl⟩ := isFinite_iff.1 ha
  obtain ⟨t, n, rfl⟩ := isFinite_iff.1 hb
  rw [Bool.eq_iff_iff, lt64_fin_true, Bool.not_eq_true', le64_fin_false]

/-- A finite value above zero has a clear sign and a magnitude. -/
theorem fin_of_gt_zero {p : F64} (hp : isFinite p = true) (hpos : gt64 p f64Zero = true) :
    ∃ m, 0 < m ∧ p = .fin false m := by
  obtain ⟨s, m, rfl⟩ := isFinite_iff.1 hp
  rw [gt64_def, f64Zero_eq, lt64_fin_true, signedMag_zero] at hpos
  cases s with
  | false => exact ⟨m, Int.natCast_pos.1 hpos, rfl⟩
  | true => rw [signedMag_true] at hpos; omega

/-- The phase of an accepted time in a finite positive period is finite, at least zero and below the period: the remainder
has the sign of the time, which is clear unless the time is a zero. -/
theorem fmod64_range {t p : F64} (ht : timeOK t = true) (hp : isFinite p = true) (hpos : gt64 p f64Zero = true) :
    isFinite (fmod64 t p) = true ∧ le64 f64Zero (fmod64 t p) = true ∧ lt64 (fmod64 t p) p = true := by
  obtain ⟨m, hm, rfl⟩ := fin_of_gt_zero hp hpos
  obtain ⟨s, a, rfl⟩ := isFinite_iff.1 (isFinite_of_timeOK ht)
  rw [timeOK_eq_phaseOK, phaseOK_fin] at ht
  rw [fmod64_fin hm.ne', f64Zero_eq, le64_fin_true, lt64_fin_true, isFinite_fin, signedMag_zero, signedMag_false]
  refine ⟨rfl, ?_⟩
  obtain rfl | rfl := ht
  · exact ⟨Int.natCast_nonneg _, Int.ofNat_lt.2 (Nat.mod_lt a hm)⟩
  · rw [Nat.zero_mod, signedMag_zero]
    exact ⟨le_refl 0, Int.natCast_pos.2 hm⟩

/-! ### The two halves of a period (R140, R141) -/

/-- The negative phase is all of the period but the closed first half. -/
theorem squareNegative_eq_not_le64 {t f : F64} (hphase : isFinite (fmod64 t (squarePeriod f)) = true)
    (hhalf : isFinite (div64 (squarePeriod f) f64Two) = true) :
    squareNegative t f = !le64 (fmod64 t (squarePeriod f)) (div64 (squarePeriod f) f64Two) :=
  lt64_eq_not_le64 hhalf hphase

theorem squareAmp_of_positive {s : State} (h : squareNegative (timeOperand s) (freqLOperand s) = false) :
    squareAmp s = s.volL := by
  rw [squareAmp, h, if_neg Bool.false_ne_true]

theorem squareAmp_of_negative {s : State} (h : squareNegative (timeOperand s) (freqLOperand s) = true) :
    squareAmp s = neg64 s.volL := by
  rw [squareAmp, if_pos h]

/-! ### The sample of a SQUARE voice (R140) -/

theorem sampleVoice_square {s : State} (htime : timeOK (timeOperand s) = true) (hk : s.voice.kind = .square) :
    sampleVoice s = .ok (statelessSample (squareAmp s) s) := by
  simp [sampleVoice, htime, hk]

theorem exec_sample_square {s : State} (hok : s.status.err = false) (htime : timeOK (timeOperand s) = true)
    (hk : s.voice.kind = .square) :
    exec .sample s = .next { s with amp := squareAmp s, status := { s.status with edge := false } } := by
  rw [exec_sample hok, sampleBody_of_ok (sampleVoice_square htime hk)]
  rfl

/-- The latched frequency of a SQUARE voice passed its check (R99). -/
theorem State.Inv.square_freqOK {s : State} (h : s.Inv) (hk : s.voice.kind = .square) :
    freqOK .square (freqLOperand s) = true := by
  have hfreq := h.freqLatchedOK
  rwa [hk] at hfreq

/-- Settles O22: the period of a latched frequency is finite and positive, which bounds the phase, and so is its half, so
that the amplitude is negative exactly where the phase is not at most the half. -/
theorem squareSamplesItsTwoHalves : Obligations.SquareSamplesItsTwoHalves := by
  intro s hinv hok htime hk period half ph
  obtain ⟨hperiod, hpos, hhalf, -⟩ := (latchedFrequenciesGivePositivePeriods s.freqL).1 (hinv.square_freqOK hk)
  obtain ⟨hphase, hnonneg, hbelow⟩ := fmod64_range htime hperiod hpos
  have hneg : squareNegative (timeOperand s) (freqLOperand s) = !le64 ph half :=
    squareNegative_eq_not_le64 hphase hhalf
  refine ⟨hnonneg, hbelow, fun hle => ?_, fun hgt => ?_⟩ <;> rw [exec_sample_square hok htime hk]
  · rw [squareAmp_of_positive (by rw [hneg, hle]; rfl)]
  · rw [squareAmp_of_negative (by rw [hneg, hgt]; rfl)]
    rfl

end Sys2Proof.Machine

/-! PROOFS. The statements about a NOISE voice (43_noise.md): the shift register as a bijection and its periods, the sample of
a NOISE voice, and the obligations O23 and O29 to O34. -/

namespace Sys2Proof.Machine

/-! ### Advance bit by bit (R163) -/

/-- Advance as R163 computes it, on the register's number. -/
theorem toNat_advance (b : Lfsr) (m : Mode) :
    (advance b m).toNat =
      ((b.toNat &&& 0x3FFF) ||| ((b.getLsbD 0 ^^ b.getLsbD (tapBit m)).toNat <<< 14)) >>> 1 := by
  have hfb (fb : Bool) : ((BitVec.ofBool fb).setWidth 15 <<< 14).toNat = fb.toNat <<< 14 := by cases fb <;> rfl
  rw [advance, BitVec.toNat_ushiftRight, BitVec.toNat_or, BitVec.toNat_and, hfb]
  rfl

/-- Settles O29: the rule's expression on numbers, and where it puts each bit. -/
theorem advanceInsertsThenShifts : Obligations.AdvanceInsertsThenShifts := by
  intro b m tap fb
  have htap : tap = tapBit m := by cases m <;> rfl
  have hfb : fb = (b.getLsbD 0 ^^ b.getLsbD (tapBit m)) := by rw [← htap]
  rw [hfb]
  exact ⟨toNat_advance b m, advance_bit14 b m, advance_bit13 b m, fun _ => advance_shifted b m⟩

/-! ### Advance is a bijection on the values with bit 14 clear (R166, R167) -/

/-- The values the register takes in a render: bit 14 is clear (R166). -/
def TopClear : Set Lfsr := {b | b.getLsbD 14 = false}

theorem TopClear.ext {b c : Lfsr} (hb : b ∈ TopClear) (hc : c ∈ TopClear)
    (h : ∀ i < 14, b.getLsbD i = c.getLsbD i) : b = c := by
  refine BitVec.eq_of_getLsbD_eq fun i hi => ?_
  obtain hlow | rfl : i < 14 ∨ i = 14 := by omega
  · exact h i hlow
  · exact Eq.trans hb (Eq.symm hc)

/-- The bit an advance discards is the feedback and the shifted tap together (R167). -/
theorem bit0_of_advance (b : Lfsr) (m : Mode) :
    b.getLsbD 0 = ((advance b m).getLsbD 13 ^^ (advance b m).getLsbD (tapBit m - 1)) := by
  have htap : (advance b m).getLsbD (tapBit m - 1) = b.getLsbD (tapBit m) := by
    cases m <;> exact advance_shifted b _ (by decide)
  rw [htap, advance_bit13, Bool.xor_assoc, Bool.xor_self, Bool.xor_false]

theorem advance_mapsTo (m : Mode) : Set.MapsTo (advance · m) TopClear TopClear := fun b _ => advance_bit14 b m

/-- Every bit of the register can be read off its advance. -/
theorem advance_injOn (m : Mode) : Set.InjOn (advance · m) TopClear := by
  intro b hb c hc (h : advance b m = advance c m)
  refine TopClear.ext hb hc fun i hi => ?_
  cases i with
  | zero => rw [bit0_of_advance b m, bit0_of_advance c m, h]
  | succ i => rw [← advance_shifted b m (by omega), ← advance_shifted c m (by omega), h]

theorem advance_bijOn (m : Mode) : Set.BijOn (advance · m) TopClear TopClear :=
  (TopClear.toFinite.injOn_iff_bijOn_of_mapsTo (advance_mapsTo m)).1 (advance_injOn m)

/-- Only zero stays where it is: in any other fixed value all bits are equal, and then the feedback is zero. -/
theorem advance_ne_self {b : Lfsr} (m : Mode) (htop : b ∈ TopClear) (hb : b ≠ 0) : advance b m ≠ b := by
  intro hfix
  have hequal : ∀ i < 14, b.getLsbD i = b.getLsbD 0 := fun i => by
    induction i with
    | zero => exact fun _ => rfl
    | succ i ih => intro hi; rw [← advance_shifted b m (by omega), hfix, ih (by omega)]
  have hlow : b.getLsbD 0 = false := by
    have hfeedback := advance_bit13 b m
    rwa [hfix, hequal 13 (by decide), hequal (tapBit m) (by cases m <;> decide), Bool.xor_self] at hfeedback
  exact hb (TopClear.ext htop rfl fun i hi => by rw [hequal i hi, hlow]; exact BitVec.getLsbD_zero.symm)

/-- Settles O30: advance is injective on finitely many values, zero is its own advance, and a step that changes the register
reseeds it or advances it once. -/
theorem registerNeverBecomesZero : Obligations.RegisterNeverBecomesZero := by
  refine ⟨fun m => ⟨fun r hr => ?_, by cases m <;> rfl, fun b => ⟨advance_bit14 b m, advance_ne_zero⟩,
    by cases m <;> rfl⟩, rfl, fun s t htop hne hstep => ?_⟩
  · obtain ⟨b, hb, rfl⟩ := (advance_bijOn m).surjOn hr
    have htap : tapBit m - 1 = if m = .short then 5 else 0 := by cases m <;> rfl
    exact ⟨b, hb, rfl, fun i hi => (advance_shifted b m hi).symm, htap ▸ bit0_of_advance b m,
      fun b' hb' h => advance_injOn m hb' hb h⟩
  · by_cases hsame : t.lfsr = s.lfsr
    · rw [hsame]; exact ⟨htop, hne⟩
    · obtain ⟨-, -, -, ⟨-, hl, -⟩ | ⟨-, -, -, hl⟩⟩ :=
        onlyInitNoiseAndResetWriteTheNoiseState s t hstep (.inl hsame)
      · rw [hl]; exact ⟨lfsrSeed_topClear, lfsrSeed_ne_zero⟩
      · rw [hl.resolve_left hsame]; exact ⟨advance_bit14 _ _, advance_ne_zero htop hne⟩

/-! ### The periods from the seed (R168) -/

/-- The output bits to come stand in the register, bit 0 first. -/
theorem getLsbD_eq_output (b : Lfsr) (m : Mode) {i : Nat} (hi : i < 14) :
    b.getLsbD i = ((advance · m)^[i] b).getLsbD 0 := by
  induction i generalizing b with
  | zero => rfl
  | succ i ih => rw [← advance_shifted b m (by omega), ih _ (by omega), Function.iterate_succ_apply]

/-- How many of the first `n` advances from `b` leave bit 0 at 1. -/
def onesOut (m : Mode) (n : Nat) (b : Lfsr) : Nat :=
  (List.range n).countP fun i => ((advance · m)^[i + 1] b).getLsbD 0

theorem onesOut_succ (m : Mode) (n : Nat) (b : Lfsr) :
    onesOut m (n + 1) b = onesOut m n (advance b m) + if (advance b m).getLsbD 0 = true then 1 else 0 := by
  rw [onesOut, List.range_succ_eq_map, List.countP_cons, List.countP_map]
  rfl

/-- An advance on the register's number, in the operations on numbers that the kernel evaluates fast. -/
def advanceNat (m : Mode) (b : Nat) : Nat := ((b &&& 0x3FFF) ||| (((b ^^^ b >>> tapBit m) % 2) <<< 14)) >>> 1

theorem advanceNat_toNat (m : Mode) (b : Lfsr) : advanceNat m b.toNat = (advance b m).toNat := by
  have hfb := Nat.toNat_testBit (b.toNat ^^^ b.toNat >>> tapBit m) 0
  rw [Nat.testBit_xor, Nat.testBit_shiftRight, Nat.pow_zero, Nat.div_one, BitVec.testBit_toNat,
    BitVec.testBit_toNat, Nat.add_zero] at hfb
  rw [toNat_advance, hfb, advanceNat]

/-- `n` advances of the number `b`: `ones` and how many of them leave bit 0 at 1, and the number reached. -/
def advanceRun (m : Mode) : Nat → Nat → Nat → Nat × Nat
  | 0, b, ones => (ones, b)
  | n + 1, b, ones =>
    if advanceNat m b % 2 = 1 then advanceRun m n (advanceNat m b) (ones + 1)
    else advanceRun m n (advanceNat m b) ones

theorem advanceRun_toNat (m : Mode) (n : Nat) (b : Lfsr) (ones : Nat) :
    advanceRun m n b.toNat ones = (ones + onesOut m n b, ((advance · m)^[n] b).toNat) := by
  induction n generalizing b ones with
  | zero => rfl
  | succ n ih =>
    have hbit : (advance b m).toNat % 2 = 1 ↔ (advance b m).getLsbD 0 = true := by
      rw [Nat.mod_two_eq_one_iff_testBit_zero, BitVec.testBit_toNat]
    rw [advanceRun, onesOut_succ, Function.iterate_succ_apply]
    simp only [advanceNat_toNat, hbit, ih]
    split
    · rw [Nat.add_right_comm, Nat.add_assoc]
    · rfl

/-- The advances after which the register first returns to the seed (R168). -/
def registerPeriod : Mode → Nat
  | .long  => 11811
  | .short => 254

/-- How many of them leave bit 0 at 1 (R168). -/
def onesPerPeriod : Mode → Nat
  | .long  => 5906
  | .short => 64

/-- One whole period, evaluated: the register is back at the seed. -/
theorem advanceRun_period (m : Mode) :
    advanceRun m (registerPeriod m) lfsrSeed.toNat 0 = (onesPerPeriod m, lfsrSeed.toNat) := by
  cases m <;> decide +kernel

/-- The run says of the register itself that it returns, and with how many ones. -/
theorem period_returns (m : Mode) :
    onesOut m (registerPeriod m) lfsrSeed = onesPerPeriod m ∧
      Function.IsPeriodicPt (advance · m) (registerPeriod m) lfsrSeed := by
  have hrun := advanceRun_period m
  rw [advanceRun_toNat, Nat.zero_add, Prod.mk.injEq] at hrun
  exact hrun.imp_right BitVec.eq_of_toNat_eq

theorem not_isPeriodicPt_of_run {m : Mode} {n : Nat} (h : (advanceRun m n lfsrSeed.toNat 0).2 ≠ lfsrSeed.toNat) :
    ¬ Function.IsPeriodicPt (advance · m) n lfsrSeed := fun hret =>
  h (by rw [advanceRun_toNat]; exact congrArg BitVec.toNat hret)

/-- A period is the least one if its quotient by no prime factor is a period. -/
theorem minimalPeriod_eq_of_prime_div {α : Type*} {f : α → α} {x : α} {n : Nat} (hn : n ≠ 0)
    (h : Function.IsPeriodicPt f n x) (hdiv : ∀ p ∈ n.primeFactorsList, ¬ Function.IsPeriodicPt f (n / p) x) :
    Function.minimalPeriod f x = n := by
  obtain ⟨k, hk⟩ := h.minimalPeriod_dvd
  by_contra hne
  have hk1 : k ≠ 1 := by rintro rfl; exact hne (by rw [hk, mul_one])
  obtain ⟨p, hp, q, rfl⟩ := Nat.exists_prime_and_dvd hk1
  rw [Nat.mul_left_comm] at hk
  refine hdiv p ((Nat.mem_primeFactorsList hn).2 ⟨hp, _, hk⟩) (Function.isPeriodicPt_iff_minimalPeriod_dvd.2 ⟨q, ?_⟩)
  exact Nat.div_eq_of_eq_mul_right hp.pos hk

/-- 11811 is 3 · 31 · 127 and 254 is 2 · 127, and no quotient by one of these primes returns to the seed. -/
theorem advanceRun_quotient_ne_seed (m : Mode) : ∀ p ∈ (registerPeriod m).primeFactorsList,
    (advanceRun m (registerPeriod m / p) lfsrSeed.toNat 0).2 ≠ lfsrSeed.toNat := by
  cases m with
  | long =>
    have hprimes : (registerPeriod .long).primeFactorsList = [3, 31, 127] := by simp [registerPeriod]
    rw [hprimes]
    decide +kernel
  | short =>
    have hprimes : (registerPeriod .short).primeFactorsList = [2, 127] := by simp [registerPeriod]
    rw [hprimes]
    decide +kernel

theorem minimalPeriod_advance (m : Mode) : Function.minimalPeriod (advance · m) lfsrSeed = registerPeriod m :=
  minimalPeriod_eq_of_prime_div (by cases m <;> decide) (period_returns m).2
    fun p hp => not_isPeriodicPt_of_run (advanceRun_quotient_ne_seed m p hp)

/-- No shorter shift keeps the output: fourteen outputs are the register, so it would return the register as well. -/
theorem output_has_no_smaller_period {m : Mode} {p : Nat} (hpos : 0 < p) (hp : p < registerPeriod m) :
    ∃ n, ((advance · m)^[n + p] lfsrSeed).getLsbD 0 ≠ ((advance · m)^[n] lfsrSeed).getLsbD 0 := by
  by_contra! hsame
  rw [← minimalPeriod_advance m] at hp
  refine Function.not_isPeriodicPt_of_pos_of_lt_minimalPeriod hpos.ne' hp ?_
  refine TopClear.ext ((advance_mapsTo m).iterate p lfsrSeed_topClear) lfsrSeed_topClear fun i hi => ?_
  rw [getLsbD_eq_output _ m hi, getLsbD_eq_output _ m hi, ← Function.iterate_add_apply, hsame]

/-- Settles O31: the register's least period is that of its output, which the register can be read off. -/
theorem shiftRegisterPeriods : Obligations.ShiftRegisterPeriods := by
  intro m period
  have hperiod : period = registerPeriod m := by cases m <;> rfl
  have hones : (if m = .short then 64 else 5906) = onesPerPeriod m := by cases m <;> rfl
  obtain ⟨hcount, hret⟩ := period_returns m
  rw [hperiod, hones]
  refine ⟨hret, fun n hpos hn => ?_, fun n => ?_, fun p => output_has_no_smaller_period, hcount⟩
  · rw [← minimalPeriod_advance m] at hn
    exact Function.not_isPeriodicPt_of_pos_of_lt_minimalPeriod hpos.ne' hn
  · change ((advance · m)^[n + registerPeriod m] lfsrSeed).getLsbD 0 = _
    rw [Function.iterate_add_apply, hret]
    rfl

/-! ### The sample of a NOISE voice (R160 to R165) -/

theorem sampleVoice_eq_noiseStep {s : State} (htime : timeOK (timeOperand s) = true) (hk : s.voice.kind = .noise) :
    sampleVoice s = .ok (noiseStep s) := by
  simp [sampleVoice, htime, hk]

theorem exec_sample_noise {s : State} (hok : s.status.err = false) (htime : timeOK (timeOperand s) = true)
    (hk : s.voice.kind = .noise) : exec .sample s = .next (commitSample (noiseStep s) s) := by
  rw [exec_sample hok, sampleBody_of_ok (sampleVoice_eq_noiseStep htime hk)]

/-- Settles O23: the sample is `NoiseStep`, committed. -/
theorem noiseSamplesTheShiftRegister : Obligations.NoiseSamplesTheShiftRegister :=
  fun _ hok htime hk => exec_sample_noise hok htime hk

/-- Without a wrap the register stays, and its bit 0 gives the amplitude. -/
theorem exec_sample_noise_of_no_edge {s : State} (hok : s.status.err = false) (htime : timeOK (timeOperand s) = true)
    (hk : s.voice.kind = .noise) (hedge : noiseEdge s = false) :
    exec .sample s = .next { s with
      amp := noiseAmp s.lfsr, phase := (noisePhase s).toBits, status := { s.status with edge := false } } := by
  rw [exec_sample_noise hok htime hk, noiseStep, noiseLfsr, hedge]
  rfl

/-- The register changes exactly on a wrap, as an advance of it is never the same register (R169). -/
theorem noiseLfsr_ne_iff {s : State} (htop : s.lfsr.getLsbD 14 = false) (hne : s.lfsr ≠ 0) :
    noiseLfsr s ≠ s.lfsr ↔ noiseEdge s = true := by
  unfold noiseLfsr
  cases noiseEdge s with
  | false => simp
  | true => simpa using advance_ne_self _ htop hne

/-- The latched frequency of a NOISE voice passed its check (R99). -/
theorem State.Inv.noise_freqOK {s : State} (h : s.Inv) (hk : s.voice.kind = .noise) :
    freqOK .noise (freqLOperand s) = true := by
  have hfreq := h.freqLatchedOK
  rwa [hk] at hfreq

/-- After a noise sample the phase of the same time is the PHASE it left, and no value is below itself. -/
theorem noiseEdge_commitSample_noiseStep {s : State} (hfreq : freqOK .noise (freqLOperand s) = true)
    (htime : timeOK (timeOperand s) = true) : noiseEdge (commitSample (noiseStep s) s) = false := by
  obtain ⟨-, -, hbits⟩ := noisePhase_legal hfreq htime
  change lt64 (noisePhase s) (F64.ofBits (noisePhase s).toBits) = false
  rw [hbits, lt64_irrefl]

/-- Settles O32: the register changes exactly on a wrap, and the phase a sample leaves is not below itself. -/
theorem noiseAdvancesExactlyOnAPhaseWrap : Obligations.NoiseAdvancesExactlyOnAPhaseWrap := by
  intro s t hinv hk hok h htok
  obtain ⟨r, hr, rfl⟩ := exec_sample_completed h htok
  obtain ⟨htime, rfl⟩ := sampleVoice_noise hr hk
  have hne : noiseLfsr s ≠ s.lfsr ↔ noiseEdge s = true := noiseLfsr_ne_iff hinv.lfsrTopClear hinv.lfsrNonzero
  refine ⟨hne, ?_, ?_⟩
  · change noiseEdge s = decide (noiseLfsr s ≠ s.lfsr)
    simp [hne]
  · have hedge := noiseEdge_commitSample_noiseStep (hinv.noise_freqOK hk) htime
    exact exec_sample_noise_of_no_edge htok htime hk hedge

/-- No legal phase is below the +0.0 that INIT leaves in PHASE (R172). -/
theorem noiseEdge_of_phase_PZERO {s : State} (hfreq : freqOK .noise (freqLOperand s) = true)
    (htime : timeOK (timeOperand s) = true) (hphase : s.phase = PZERO) : noiseEdge s = false := by
  obtain ⟨hlegal, -, -⟩ := noisePhase_legal hfreq htime
  rw [noiseEdge, phaseOperand, hphase]
  exact (Bool.not_eq_true' _).mp (Bool.and_eq_true_iff.1 hlegal).2

theorem noiseAmp_lfsrSeed : noiseAmp lfsrSeed = ONE := if_pos (by decide)

/-- The sample of a noise state as INIT leaves it (R172). -/
theorem exec_sample_first_noise {s : State} (hok : s.status.err = false) (htime : timeOK (timeOperand s) = true)
    (hk : s.voice.kind = .noise) (hfreq : freqOK .noise (freqLOperand s) = true) (hphase : s.phase = PZERO)
    (hseed : s.lfsr = lfsrSeed) :
    exec .sample s = .next { s with
      amp := ONE, phase := (noisePhase s).toBits, status := { s.status with edge := false } } := by
  rw [exec_sample_noise_of_no_edge hok htime hk (noiseEdge_of_phase_PZERO hfreq htime hphase), hseed, noiseAmp_lfsrSeed]

/-- Settles O33: INIT leaves PHASE at +0.0, and no legal phase is below it. -/
theorem firstNoiseSampleNeverAdvances : Obligations.FirstNoiseSampleNeverAdvances := by
  intro m s t x h htok htime
  rw [exec_initCommand nofun] at h
  cases h
  obtain ⟨hfreq, -, he⟩ | ⟨c, -, he⟩ := initVoice_cases .noise m s <;> rw [he] at htok ⊢
  · exact ⟨_, exec_sample_first_noise rfl htime rfl hfreq rfl rfl, rfl, rfl, rfl, rfl⟩
  · cases htok

/-! ### VOL_L is not applied (R160, R164) -/

/-- The state with another VOL_L. -/
def State.withVolL (v : Word) (s : State) : State := { s with volL := v }

/-- A NOISE voice yields the same sample, or the same error, with another VOL_L. -/
theorem sampleVoice_withVolL {s : State} (hk : s.voice.kind = .noise) (v : Word) :
    sampleVoice (s.withVolL v) = sampleVoice s := by
  cases htime : timeOK (timeOperand s) with
  | false => exact (sampleVoice_invalidTime (s := s.withVolL v) htime).trans (sampleVoice_invalidTime htime).symm
  | true =>
    exact (sampleVoice_eq_noiseStep (s := s.withVolL v) htime hk).trans (sampleVoice_eq_noiseStep htime hk).symm

theorem sampleBody_withVolL {s : State} (hk : s.voice.kind = .noise) (v : Word) :
    sampleBody (s.withVolL v) = (sampleBody s).withVolL v := by
  unfold sampleBody
  rw [sampleVoice_withVolL hk v]
  cases sampleVoice s <;> rfl

theorem sampleqBody_withVolL {s : State} (hk : s.voice.kind = .noise) (v : Word) :
    sampleqBody (s.withVolL v) = (sampleqBody s).withVolL v := by
  have hmvol : mvolOperand (s.withVolL v) = mvolOperand s := rfl
  unfold sampleqBody
  rw [sampleVoice_withVolL hk v, hmvol]
  cases sampleVoice s with
  | error c => rfl
  | ok r =>
    dsimp only
    cases quantize (F64.ofBits r.amp) (mvolOperand s) <;> rfl

/-- Settles O34: a refused command changes nothing, and what the other two compute does not read VOL_L. -/
theorem noiseIgnoresItsVolume : Obligations.NoiseIgnoresItsVolume := by
  intro s t v i hi hk h
  change exec i (s.withVolL v) = .next (t.withVolL v)
  cases herr : s.status.err with
  | true =>
    have hinit : isInit i = false := by rcases hi with rfl | rfl <;> rfl
    rw [exec_of_err herr hinit] at h
    cases h
    exact exec_of_err herr hinit
  | false =>
    have herr' : (s.withVolL v).status.err = false := herr
    obtain rfl | rfl := hi
    · rw [exec_sample herr] at h
      cases h
      rw [exec_sample herr', sampleBody_withVolL hk]
    · rw [exec_sampleq herr] at h
      cases h
      rw [exec_sampleq herr', sampleqBody_withVolL hk]

end Sys2Proof.Machine

/-! PROOFS. The statements about the quantizer (44_quantizer.md): when its value is a NaN, the range of the value and of its
floor, what QUANT and SAMPLEQ answer case by case, and the obligations O35 to O44 and O60. -/

namespace Sys2Proof.Machine

/-! ### When a value is a NaN (R10, R190) -/

/-- A finite summand makes no NaN and hides none. -/
theorem isNaN_add64_fin (a : F64) (t : Bool) (n : Nat) : isNaN (add64 a (.fin t n)) = isNaN a := by
  cases a with
  | nan x => rfl
  | inf s => rfl
  | fin s m =>
    rw [add64_fin]
    split
    · rfl
    · exact roundTo_not_nan _ _ _

/-- A finite factor makes a NaN only of an infinity, and only when it is a zero. -/
theorem isNaN_mul64_fin (a : F64) (t : Bool) (n : Nat) :
    isNaN (mul64 a (.fin t n)) = true ↔ isNaN a = true ∨ (isFinite a = false ∧ n = 0) := by
  cases a with
  | nan x => exact iff_of_true rfl (.inl rfl)
  | inf s =>
    rw [mul64]
    by_cases hn : n = 0 <;> simp [hn]
  | fin s m => simp [mul64_fin, roundTo_not_nan]

theorem num127_ne_zero : 127 * unitsOfOne ≠ 0 := Nat.mul_ne_zero (by decide) unitsOfOne_pos.ne'

/-- 127.0 is finite and not a zero. -/
theorem isNaN_mul64_num127 (a : F64) : isNaN (mul64 a f64Num127) = isNaN a := by
  rw [f64Num127_eq, Bool.eq_iff_iff, isNaN_mul64_fin, or_iff_left fun h => num127_ne_zero h.2]

theorem isNaN_quantValue_fin (a : F64) (t : Bool) (n : Nat) :
    isNaN (quantValue a (.fin t n)) = true ↔
      isNaN a = true ∨ (isFinite (mul64 a f64Num127) = false ∧ n = 0) := by
  rw [← isNaN_mul64_num127 a, ← isNaN_mul64_fin, quantValue, f64Num127_eq, isNaN_add64_fin]

/-- A finite register is a zero word exactly when its magnitude is zero. -/
theorem isZeroWord_iff_of_fin {x : Word} {s : Bool} {m : Nat} (hx : F64.ofBits x = .fin s m) :
    isZeroWord x = true ↔ m = 0 := by
  constructor
  · intro h
    rw [ofBits_of_isZeroWord h] at hx
    cases hx
    rfl
  · rintro rfl
    rw [← toBits_ofBits x, hx]
    exact isZeroWord_toBits_zero s

/-- Settles O36: neither the factor 127.0 nor the summand makes a NaN, so the master volume does or none. -/
theorem quantValueIsNaNExactlyWhen : Obligations.QuantValueIsNaNExactlyWhen := by
  intro a mv hmv
  obtain ⟨t, n, hmv⟩ := isFinite_iff.1 hmv
  rw [isZeroWord_iff_of_fin hmv, hmv]
  exact isNaN_quantValue_fin _ t n

/-! ### Floor, truncation and the sample count (R195, R207) -/

theorem signedMag_true_nonpos (m : Nat) : signedMag true m ≤ 0 := Int.neg_nonpos_of_nonneg (Int.natCast_nonneg m)

theorem clampZ_of_nonpos {k hi : Int} (h : k ≤ 0) (hhi : 0 ≤ hi) : clampZ (.int k) 0 hi = 0 := by
  rw [clampZ_int]
  split
  · rfl
  · rw [if_neg (by omega)]; omega

/-- Settles O37: at or above zero the floor is the truncation, and below zero neither is above zero. -/
theorem floorAndTruncationGiveTheSameByte : Obligations.FloorAndTruncationGiveTheSameByte := by
  intro y n k hn hk
  cases y with
  | nan x => cases hn
  | inf s =>
    cases hn; cases hk
    exact ⟨rfl, fun h => absurd rfl h⟩
  | fin s m =>
    cases hn; cases hk
    cases s with
    | false =>
      rw [signedMag_false, signedMag_false, Int.natCast_div]
      exact ⟨rfl, fun h => absurd rfl h⟩
    | true =>
      have hfloor : signedMag true m / (unitsOfOne : Int) ≤ 0 :=
        Int.ediv_nonpos_of_nonpos_of_neg (signedMag_true_nonpos m) (Int.natCast_pos.2 unitsOfOne_pos)
      have htrunc : signedMag true (m / unitsOfOne) ≤ 0 := signedMag_true_nonpos _
      rw [clampZ_of_nonpos hfloor (by decide), clampZ_of_nonpos htrunc (by decide)]
      refine ⟨rfl, fun hne => ⟨?_, rfl, rfl⟩⟩
      have hm : m ≠ 0 := by rintro rfl; simp at hne
      rw [f64Zero_eq, lt64_fin_true, signedMag_zero, signedMag_neg_iff hm]

theorem sampleCount_of_fin {sr len : Word} {s : Bool} {m : Nat}
    (h : mul64 (F64.ofBits sr) (F64.ofBits len) = .fin s m) :
    sampleCount sr len = some ⌊(F64.fin s m).toRat⌋₊ := by
  rw [sampleCount, h, floorZ_fin, ← Int.floor_toNat]

/-- Settles O60: the count is the natural floor of the product's rational value. -/
theorem sampleCountIsTheFloor : Obligations.SampleCountIsTheFloor := by
  refine ⟨by decide +kernel, fun sr len hfin hnonneg => ?_⟩
  obtain ⟨s, m, h⟩ := isFinite_iff.1 hfin
  rw [h] at hnonneg ⊢
  exact ⟨_, sampleCount_of_fin h, Nat.floor_le hnonneg, Nat.lt_floor_add_one _⟩

/-! ### The amplitude's warning (R193) -/

theorem amplitudeWarning_fin {s : Bool} {m : Nat} : amplitudeWarning (.fin s m) = true ↔ unitsOfOne < m := by
  rw [amplitudeWarning, gt64_def, f64MinusOne_eq, f64One_eq, Bool.or_eq_true, lt64_fin_true, lt64_fin_true]
  cases s
  · simp only [signedMag_false, signedMag_true]; omega
  · simp only [signedMag_false, signedMag_true]; omega

theorem amplitudeWarning_of_le {m : Nat} (h : m ≤ unitsOfOne) (s : Bool) : amplitudeWarning (.fin s m) = false := by
  rw [← Bool.not_eq_true, amplitudeWarning_fin]; exact h.not_gt

theorem unitsOfOne_eq_magOfCode : unitsOfOne = magOfCode 0x3FF0000000000000 := by decide +kernel

/-- Settles O40: a finite magnitude is above one exactly when its code is above that of 1.0, and an infinity is due it. -/
theorem amplitudeWarningExactlyBeyondOne : Obligations.AmplitudeWarningExactlyBeyondOne := by
  intro x
  have hinf : infCode = 0x7FF0000000000000 := by decide
  change amplitudeWarning (F64.ofBits x) = true ↔ _
  rcases Nat.lt_trichotomy (x.toNat % 2 ^ 63) infCode with hfin | heq | hnan
  · rw [ofBits_of_finite hfin, amplitudeWarning_fin, unitsOfOne_eq_magOfCode, magOfCode_strictMono.lt_iff_lt]
    omega
  · have hx : F64.ofBits x = .inf (decide (2 ^ 63 ≤ x.toNat)) := by
      rw [F64.ofBits, if_neg (by omega), valueOfCode_infinite (by omega)]
    refine iff_of_true ?_ (by omega)
    rw [hx, amplitudeWarning, f64MinusOne_eq, f64One_eq]
    cases decide (2 ^ 63 ≤ x.toNat) <;> rfl
  · have hx : F64.ofBits x = .nan x := if_pos hnan
    refine iff_of_false ?_ (by omega)
    rw [hx, amplitudeWarning, f64MinusOne_eq, f64One_eq]
    exact Bool.false_ne_true

/-! ### One quantization, case by case (R190) -/

theorem quantize_invalidMvol {mv : F64} (h : isFinite mv = false) (a : F64) : quantize a mv = .error .invalidMvol := by
  simp [quantize, h]

theorem quantize_invalidAmp {a mv : F64} (hmv : isFinite mv = true) (hy : isNaN (quantValue a mv) = true) :
    quantize a mv = .error .invalidAmp := by
  simp [quantize, hmv, floorZ_none.2 hy]

theorem quantize_of_floorZ {a mv : F64} {n : ExtInt} (hmv : isFinite mv = true)
    (hn : floorZ (quantValue a mv) = some n) :
    quantize a mv = .ok { pcm := pcmByte n, awarn := amplitudeWarning a, cwarn := clampWarning n } := by
  simp [quantize, hmv, hn]

theorem exists_floorZ {y : F64} (h : isNaN y = false) : ∃ n, floorZ y = some n :=
  Option.ne_none_iff_exists'.1 fun hnone => by rw [floorZ_none.1 hnone] at h; cases h

/-- A floor that is a byte is the sample, with no CWARN. -/
theorem quantize_of_byte {a mv : F64} {q : Nat} (hmv : isFinite mv = true) (ha : amplitudeWarning a = false)
    (hn : floorZ (quantValue a mv) = some (.int q)) (hq : q ≤ 255) :
    quantize a mv = .ok { pcm := BitVec.ofNat 8 q, awarn := false, cwarn := false } := by
  have hpcm : pcmByte (.int q) = BitVec.ofNat 8 q := by
    rw [pcmByte, clampZ_of_mem (by omega) (by omega), BitVec.ofInt_natCast]
  have hcwarn : clampWarning (.int q) = false := by
    rw [clampWarning, ExtInt.below, ExtInt.above, decide_eq_false (by omega), decide_eq_false (by omega), Bool.or_false]
  rw [quantize_of_floorZ hmv hn, hpcm, ha, hcwarn]

/-- Without a warning a completed quantization writes PCM alone. -/
theorem commitQuant_of_no_warning (pcm : Byte) (s : State) :
    commitQuant { pcm, awarn := false, cwarn := false } s = { s with pcm } := by
  rw [commitQuant, Status.warn, Bool.or_false, Bool.or_false]

/-! ### The range of the value (R196, R197) -/

theorem num127_eq_magOfCode : 127 * unitsOfOne = magOfCode 0x405FC00000000000 := by decide +kernel
theorem num254_eq_magOfCode : 254 * unitsOfOne = magOfCode 0x406FC00000000000 := by decide +kernel
theorem ofBits_num254 : F64.ofBits 0x406FC00000000000 = .fin false (254 * unitsOfOne) := by decide +kernel

/-- Rounding is monotone: a quotient of at most a magnitude on the grid stays at most it. -/
theorem roundTo_le_mag {neg : Bool} {n d b c : Nat} (hb : b = magOfCode c) (hc : c < infCode) (hd : 0 < d)
    (h : n ≤ d * b) : ∃ k, k ≤ b ∧ roundTo neg n d = .fin neg k := by
  subst hb
  obtain ⟨e, he, hround⟩ := roundTo_le hd hc h
  exact ⟨_, magOfCode_strictMono.monotone he, hround⟩

/-- A product of a magnitude of at most one and one of at most 127.0 is of at most 127.0. -/
theorem mul64_le_num127 {s t : Bool} {m n : Nat} (h : m * n ≤ unitsOfOne * (127 * unitsOfOne)) :
    ∃ k, k ≤ 127 * unitsOfOne ∧ mul64 (.fin s m) (.fin t n) = .fin (s ^^ t) k :=
  roundTo_le_mag num127_eq_magOfCode (by decide) unitsOfOne_pos h

/-- A summand from -127.0 to 127.0 gives a sum from +0.0 to 254.0. -/
theorem add64_num127_le {s : Bool} {k : Nat} (hk : k ≤ 127 * unitsOfOne) :
    ∃ c, c ≤ 254 * unitsOfOne ∧ add64 (.fin s k) f64Num127 = .fin false c := by
  have hrange : 0 ≤ signedMag s k + signedMag false (127 * unitsOfOne) ∧
      signedMag s k + signedMag false (127 * unitsOfOne) ≤ (254 * unitsOfOne : Nat) := by
    cases s <;> simp only [signedMag_false, signedMag_true] <;> omega
  rw [f64Num127_eq, add64_fin, decide_eq_false (not_lt.2 hrange.1)]
  split
  · exact ⟨0, Nat.zero_le _, by rw [Bool.and_false]⟩
  · exact roundTo_le_mag num254_eq_magOfCode (by decide) Nat.one_pos (by omega)

/-- The value of an amplitude and a master volume of magnitude at most one. -/
theorem quantValue_inContract {s t : Bool} {m n : Nat} (hm : m ≤ unitsOfOne) (hn : n ≤ unitsOfOne) :
    ∃ c, c ≤ 254 * unitsOfOne ∧ quantValue (.fin s m) (.fin t n) = .fin false c := by
  obtain ⟨j, hj, hfirst⟩ := mul64_le_num127 (s := s) (t := false) (Nat.mul_le_mul_right (127 * unitsOfOne) hm)
  obtain ⟨k, hk, hsecond⟩ := mul64_le_num127 (s := s ^^ false) (t := t) (n.mul_comm j ▸ Nat.mul_le_mul hn hj)
  rw [quantValue, f64Num127_eq, hfirst, hsecond, ← f64Num127_eq]
  exact add64_num127_le hk

/-- The floor of a value not below zero counts its whole ones. -/
theorem floorZ_fin_false (c : Nat) : floorZ (.fin false c) = some (.int (c / unitsOfOne : Nat)) := rfl

/-- What lies between two finite values is finite. -/
theorem fin_of_between {a : F64} {s t : Bool} {m n : Nat} (hlow : le64 (.fin s m) a = true)
    (hhigh : le64 a (.fin t n) = true) :
    ∃ u k, a = .fin u k ∧ signedMag s m ≤ signedMag u k ∧ signedMag u k ≤ signedMag t n := by
  cases a with
  | nan x => cases hlow
  | inf u => cases u <;> contradiction
  | fin u k => exact ⟨u, k, rfl, le64_fin_true.1 hlow, le64_fin_true.1 hhigh⟩

theorem mag_le_of_signedMag {s : Bool} {m k : Nat} (hlow : -(k : Int) ≤ signedMag s m) (hhigh : signedMag s m ≤ k) :
    m ≤ k := by
  have habs : |signedMag s m| ≤ k := abs_le.2 ⟨hlow, hhigh⟩
  rwa [abs_signedMag, Int.ofNat_le] at habs

/-- A zero amplitude leaves the summand alone. -/
theorem quantValue_zero (s t : Bool) (n : Nat) : quantValue (.fin s 0) (.fin t n) = f64Num127 := by
  rw [quantValue, f64Num127_eq, mul64_zero_left, mul64_zero_left, add64_fin, signedMag_zero, zero_add, signedMag_false,
    if_neg (Int.natCast_ne_zero.2 num127_ne_zero), decide_eq_false (Int.natCast_nonneg _).not_gt, Int.natAbs_natCast,
    num127_eq_magOfCode, roundTo_exact Nat.one_pos (by decide) (Nat.one_mul _).symm]

/-- A zero amplitude quantizes to the midpoint (R197). -/
theorem quantize_zeroWord {a : Word} {mv : F64} (ha : isZeroWord a = true) (hmv : isFinite mv = true) :
    quantize (F64.ofBits a) mv = .ok { pcm := 127, awarn := false, cwarn := false } := by
  obtain ⟨t, n, rfl⟩ := isFinite_iff.1 hmv
  rw [ofBits_of_isZeroWord ha]
  refine quantize_of_byte (q := 127) rfl (amplitudeWarning_of_le (Nat.zero_le _) _) ?_ (by decide)
  rw [quantValue_zero, f64Num127_eq, floorZ_fin_false, Nat.mul_div_cancel _ unitsOfOne_pos]

/-! ### QUANT and SAMPLEQ, case by case (R191, R192) -/

theorem quantBody_of_ok {s : State} {q : Quantized} (h : quantize (ainOperand s) (mvolOperand s) = .ok q) :
    quantBody s = commitQuant q s := by
  unfold quantBody; rw [h]

theorem quantBody_of_error {s : State} {c : ErrorCode} (h : quantize (ainOperand s) (mvolOperand s) = .error c) :
    quantBody s = recordError c s := by
  unfold quantBody; rw [h]

theorem sampleqBody_of_ok {s : State} {r : Sampled} {q : Quantized} (hr : sampleVoice s = .ok r)
    (hq : quantize (F64.ofBits r.amp) (mvolOperand s) = .ok q) :
    sampleqBody s = commitQuant q (commitSample r s) := by
  unfold sampleqBody; rw [hr]; dsimp only; rw [hq]

theorem sampleqBody_of_sample_error {s : State} {c : ErrorCode} (h : sampleVoice s = .error c) :
    sampleqBody s = recordError c s := by
  unfold sampleqBody; rw [h]

theorem sampleqBody_of_quantize_error {s : State} {r : Sampled} {c : ErrorCode} (hr : sampleVoice s = .ok r)
    (hc : quantize (F64.ofBits r.amp) (mvolOperand s) = .error c) : sampleqBody s = recordError c s := by
  unfold sampleqBody; rw [hr]; dsimp only; rw [hc]

theorem exec_sample_of_ok {s : State} {r : Sampled} (hok : s.status.err = false) (hr : sampleVoice s = .ok r) :
    exec .sample s = .next (commitSample r s) := by
  rw [exec_sample hok, sampleBody_of_ok hr]

theorem exec_quant_of_ok {s : State} {q : Quantized} (hok : s.status.err = false)
    (hq : quantize (ainOperand s) (mvolOperand s) = .ok q) : exec .quant s = .next (commitQuant q s) := by
  rw [exec_quant hok, quantBody_of_ok hq]

theorem exec_sampleq_of_ok {s : State} {r : Sampled} {q : Quantized} (hok : s.status.err = false)
    (hr : sampleVoice s = .ok r) (hq : quantize (F64.ofBits r.amp) (mvolOperand s) = .ok q) :
    exec .sampleq s = .next (commitQuant q (commitSample r s)) := by
  rw [exec_sampleq hok, sampleqBody_of_ok hr hq]

/-- What QUANT answers: the state it is refused in, its error recorded, or its quantization committed. -/
theorem exec_quant_cases {s t : State} (h : exec .quant s = .next t) :
    (s.status.err = true ∧ t = s) ∨
    (s.status.err = false ∧ ∃ c, quantize (ainOperand s) (mvolOperand s) = .error c ∧ t = recordError c s) ∨
    (s.status.err = false ∧ ∃ q, quantize (ainOperand s) (mvolOperand s) = .ok q ∧ t = commitQuant q s) := by
  cases herr : s.status.err with
  | true =>
    rw [exec_of_err herr rfl] at h
    cases h
    exact .inl ⟨rfl, rfl⟩
  | false =>
    rw [exec_quant herr] at h
    cases h
    cases hq : quantize (ainOperand s) (mvolOperand s) with
    | error c => exact .inr (.inl ⟨rfl, c, rfl, quantBody_of_error hq⟩)
    | ok q => exact .inr (.inr ⟨rfl, q, rfl, quantBody_of_ok hq⟩)

/-- What SAMPLEQ answers: the state it is refused in, an error recorded, or both halves committed. -/
theorem exec_sampleq_cases {s t : State} (h : exec .sampleq s = .next t) :
    (s.status.err = true ∧ t = s) ∨
    (s.status.err = false ∧ ∃ c, (sampleVoice s = .error c ∨
      ∃ r, sampleVoice s = .ok r ∧ quantize (F64.ofBits r.amp) (mvolOperand s) = .error c) ∧ t = recordError c s) ∨
    (s.status.err = false ∧ ∃ r q, sampleVoice s = .ok r ∧ quantize (F64.ofBits r.amp) (mvolOperand s) = .ok q ∧
      t = commitQuant q (commitSample r s)) := by
  cases herr : s.status.err with
  | true =>
    rw [exec_of_err herr rfl] at h
    cases h
    exact .inl ⟨rfl, rfl⟩
  | false =>
    rw [exec_sampleq herr] at h
    cases h
    cases hr : sampleVoice s with
    | error c => exact .inr (.inl ⟨rfl, c, .inl rfl, sampleqBody_of_sample_error hr⟩)
    | ok r =>
      cases hq : quantize (F64.ofBits r.amp) (mvolOperand s) with
      | error c => exact .inr (.inl ⟨rfl, c, .inr ⟨r, rfl, hq⟩, sampleqBody_of_quantize_error hr hq⟩)
      | ok q => exact .inr (.inr ⟨rfl, r, q, rfl, hq, sampleqBody_of_ok hr hq⟩)

/-- Settles O41: QUANT is refused, records its error or writes PCM and the warnings. -/
theorem quantFrame : Obligations.QuantFrame := by
  intro s t h
  obtain ⟨herr, rfl⟩ | ⟨-, c, -, rfl⟩ | ⟨hok, q, -, rfl⟩ := exec_quant_cases h
  · simp [herr]
  · simp
  · simp +contextual [hok]

/-- Settles O44: SAMPLEQ is refused, records its error or commits both halves, and each writes few registers. -/
theorem sampleqFrame : Obligations.SampleqFrame := by
  intro s t h
  obtain ⟨herr, rfl⟩ | ⟨-, c, -, rfl⟩ | ⟨hok, r, q, hr, -, rfl⟩ := exec_sampleq_cases h
  · simp [herr]
  · simp
  · have hstateless (hk : s.voice.kind ≠ .noise) := (sampleVoice_stateless hr hk).2
    simpa +contextual [hok] using hstateless

/-- Settles O38: the value is in the range of `quantValue_inContract`, so its floor is the byte and nothing warns. -/
theorem inContractInputsStayInRange : Obligations.InContractInputsStayInRange := by
  intro s hok halow hahigh hvlow hvhigh y
  rw [f64MinusOne_eq] at halow
  rw [f64Zero_eq] at hvlow
  rw [f64One_eq] at hahigh hvhigh
  obtain ⟨_, m, ha, hmlow, hmhigh⟩ := fin_of_between halow hahigh
  obtain ⟨_, n, hmv, hnlow, hnhigh⟩ := fin_of_between hvlow hvhigh
  have hm : m ≤ unitsOfOne := mag_le_of_signedMag hmlow hmhigh
  have hn : n ≤ unitsOfOne := mag_le_of_signedMag (by rw [signedMag_zero] at hnlow; omega) hnhigh
  obtain ⟨c, hc, hvalue⟩ := quantValue_inContract hm hn
  rw [← ha, ← hmv] at hvalue
  have hq : c / unitsOfOne ≤ 254 := Nat.div_le_of_le_mul (Nat.mul_comm 254 _ ▸ hc)
  have hfloor : floorZ (quantValue (ainOperand s) (mvolOperand s)) = some (.int (c / unitsOfOne : Nat)) :=
    (congrArg floorZ hvalue).trans (floorZ_fin_false c)
  have hquiet : amplitudeWarning (ainOperand s) = false := by rw [ainOperand, ha, amplitudeWarning_of_le hm]
  have hfin : isFinite (mvolOperand s) = true := by rw [mvolOperand, hmv, isFinite_fin]
  refine ⟨?_, ?_, c / unitsOfOne, hfloor, hq, ?_⟩
  · change le64 f64Zero (quantValue _ _) = true
    rw [hvalue, f64Zero_eq, le64_fin_true, signedMag_zero]
    exact Int.natCast_nonneg c
  · change le64 (quantValue _ _) _ = true
    rw [hvalue, ofBits_num254, le64_fin_true]
    exact Int.ofNat_le.2 hc
  · rw [exec_quant_of_ok hok (quantize_of_byte hfin hquiet hfloor (by omega)), commitQuant_of_no_warning]

/-- Settles O35: the three outcomes of `quantize`, written by QUANT. -/
theorem quantWritesTheClampedFloor : Obligations.QuantWritesTheClampedFloor := by
  intro s hok a mv y
  rw [exec_quant hok]
  refine ⟨fun hmv => ?_, fun hmv hy => ?_, fun hmv hy => ?_⟩
  · rw [quantBody_of_error (quantize_invalidMvol hmv _), recordError_of_no_err hok]
    rfl
  · rw [quantBody_of_error (quantize_invalidAmp hmv hy), recordError_of_no_err hok]
    rfl
  · obtain ⟨n, hn⟩ := exists_floorZ hy
    refine ⟨n, hn, ?_⟩
    rw [quantBody_of_ok (quantize_of_floorZ hmv hn)]
    rfl

/-- With an accepted time, and on a SINE voice a finite argument, a sample raises nothing (R101, R121). -/
theorem sampleVoice_completes {s : State} (htime : timeOK (timeOperand s) = true)
    (harg : s.voice.kind = .sine → isFinite (sineArg (timeOperand s) (freqLOperand s)) = true) :
    ∃ r, sampleVoice s = .ok r := by
  cases hr : sampleVoice s with
  | ok r => exact ⟨r, rfl⟩
  | error c =>
    obtain ⟨hbad, -⟩ | ⟨-, hk, hbad, -⟩ := sampleVoice_error hr
    · rw [htime] at hbad; cases hbad
    · rw [harg hk] at hbad; cases hbad

/-- Settles O42: the sample completes, and SAMPLEQ writes the outcome of `quantize` on its amplitude over it. -/
theorem sampleqCompletesBothHalves : Obligations.SampleqCompletesBothHalves := by
  intro s hok htime harg hmv
  obtain ⟨r, hr⟩ := sampleVoice_completes htime harg
  refine ⟨commitSample r s, exec_sample_of_ok hok hr, hok, fun hy => ?_⟩
  obtain ⟨n, hn⟩ := exists_floorZ hy
  refine ⟨n, hn, ?_⟩
  rw [exec_sampleq_of_ok hok hr (quantize_of_floorZ hmv hn)]
  rfl

/-! ### SAMPLEQ as three transactions (R192) -/

/-- A run that begins with a command executes it and runs the other transactions from there. -/
theorem runHost_cmd {i : Instr} {ts : List Transaction} {s t : State} (h : exec i { s with pending := ts } = .next t) :
    runHost (cmd i :: ts) s = runHost ts t :=
  runHost_cons ((executeCommand_of_decode (decode_encode i) _).trans h)

theorem runHost_sample {s : State} {r : Sampled} (hok : s.status.err = false) (hr : sampleVoice s = .ok r)
    (ts : List Transaction) : runHost (cmd .sample :: ts) s = runHost ts (commitSample r s) :=
  runHost_cmd (t := commitSample r { s with pending := ts }) (exec_sample_of_ok hok hr)

theorem runHost_quant {s : State} {q : Quantized} (hok : s.status.err = false)
    (hq : quantize (ainOperand s) (mvolOperand s) = .ok q) (ts : List Transaction) :
    runHost (cmd .quant :: ts) s = runHost ts (commitQuant q s) :=
  runHost_cmd (t := commitQuant q { s with pending := ts }) (exec_quant_of_ok hok hq)

theorem runHost_writeAin (v : Word) (ts : List Transaction) (s : State) :
    runHost (wr .ain v :: ts) s = runHost ts { s with ain := v } :=
  runHost_cons (t := { s with ain := v, pending := ts }) rfl

/-- Settles O43: the three transactions commit the sample, copy AMP and commit the quantization of AMP. -/
theorem sampleqEqualsSampleThenQuant : Obligations.SampleqEqualsSampleThenQuant := by
  intro s t hok h htok
  obtain ⟨herr, -⟩ | ⟨-, c, -, rfl⟩ | ⟨-, r, q, hr, hq, rfl⟩ := exec_sampleq_cases h
  · rw [hok] at herr; cases herr
  · rw [recordError_status, Status.record_err] at htok; cases htok
  · rw [runHost_sample hok hr, runHost_writeAin]
    exact runHost_quant (s := { commitSample r s with ain := r.amp }) hok hq []

/-! ### A zero amplitude (R197) -/

theorem isZeroWord_neg64 {x : Word} (h : isZeroWord x = true) : isZeroWord (neg64 x) = true := by
  obtain rfl | rfl := isZeroWord_iff.1 h <;> decide

theorem isZeroWord_squareAmp {s : State} (h : isZeroWord s.volL = true) : isZeroWord (squareAmp s) = true := by
  obtain he | he := squareAmp_cases s <;> rw [he]
  exacts [h, isZeroWord_neg64 h]

/-- Settles O39: each of the three voices samples a zero, and a zero quantizes to 127 without a warning. -/
theorem zeroAmplitudeIsTheMidpoint : Obligations.ZeroAmplitudeIsTheMidpoint := by
  intro s hok hmv
  constructor
  · intro hain
    rw [exec_quant_of_ok hok (quantize_zeroWord hain hmv), commitQuant_of_no_warning]
  · intro _ htime hvoice
    obtain ⟨r, hr, hzero⟩ : ∃ r, sampleVoice s = .ok r ∧ isZeroWord r.amp = true := by
      obtain hk | ⟨hk, hvol⟩ | ⟨hk, hvol, harg⟩ := hvoice
      · exact ⟨_, sampleVoice_silence htime hk, rfl⟩
      · exact ⟨_, sampleVoice_square htime hk, isZeroWord_squareAmp hvol⟩
      · have hr := sampleVoice_sine htime hk harg
        exact ⟨_, hr, sampleVoice_sine_zeroVol hr hk hvol⟩
    exact ⟨_, exec_sampleq_of_ok hok hr (quantize_zeroWord hzero hmv), hok, hzero, rfl, Bool.or_false _,
      Bool.or_false _⟩

end Sys2Proof.Machine

/-! PROOFS. The statements about errors (60_exceptions.md): what a command answers when one of its checks fails, and the
obligations O45 and O46. -/

namespace Sys2Proof.Machine

/-! ### A failing command, check by check (R223, R224) -/

/-- An error of the sample is recorded by SAMPLE and by SAMPLEQ alike. -/
theorem exec_sample_sampleq_of_error {s : State} {c : ErrorCode} (hok : s.status.err = false)
    (hc : sampleVoice s = .error c) :
    exec .sample s = .next (s.withErrorCode (errorNumber c)) ∧
      exec .sampleq s = .next (s.withErrorCode (errorNumber c)) := by
  rw [exec_sample hok, exec_sampleq hok, sampleBody_of_error hc, sampleqBody_of_sample_error hc,
    recordError_of_no_err hok]
  exact ⟨rfl, rfl⟩

theorem exec_quant_of_error {s : State} {c : ErrorCode} (hok : s.status.err = false)
    (hc : quantize (ainOperand s) (mvolOperand s) = .error c) :
    exec .quant s = .next (s.withErrorCode (errorNumber c)) := by
  rw [exec_quant hok, quantBody_of_error hc, recordError_of_no_err hok]

/-- When the sample raises nothing, SAMPLEQ records the error of the quantizer. -/
theorem exec_sampleq_of_quantize_error {s : State} {r : Sampled} {c : ErrorCode} (hok : s.status.err = false)
    (hr : sampleVoice s = .ok r) (hc : quantize (F64.ofBits r.amp) (mvolOperand s) = .error c) :
    exec .sampleq s = .next (s.withErrorCode (errorNumber c)) := by
  rw [exec_sampleq hok, sampleqBody_of_quantize_error hr hc, recordError_of_no_err hok]

/-- Settles O45: the decoder, the gate, and the failing checks of INIT, the sample and the quantizer in turn. -/
theorem firstFailingCheckIsRecorded : Obligations.FirstFailingCheckIsRecorded := by
  intro s t argOK mv y
  refine ⟨fun w hw hok => ?_, fun i herr hi => ?_, fun k m hm hf => ?_, fun k m hm hf hv => ?_, fun hok =>
    ⟨fun htime => ?_, fun htime hk harg => ?_, fun hmv => ?_, fun hmv hy => ?_, fun htime harg hmv => ?_,
      fun htime harg hmv u hu hy => ?_⟩⟩
  · rw [executeCommand_illegal hw, recordError_of_no_err hok]; rfl
  · obtain rfl | rfl | rfl := hi <;> exact exec_of_err herr rfl
  · exact ⟨_, (exec_initCommand hm s).trans (congrArg _ (initVoice_badFreq hf)), rfl, rfl⟩
  · exact ⟨_, (exec_initCommand hm s).trans (congrArg _ (initVoice_badVol hf hv)), rfl, rfl⟩
  · exact exec_sample_sampleq_of_error hok (sampleVoice_invalidTime htime)
  · exact exec_sample_sampleq_of_error hok (sampleVoice_argOverflow htime hk harg)
  · exact exec_quant_of_error hok (quantize_invalidMvol hmv _)
  · exact exec_quant_of_error hok (quantize_invalidAmp hmv hy)
  · obtain ⟨r, hr⟩ := sampleVoice_completes htime harg
    exact exec_sampleq_of_quantize_error hok hr (quantize_invalidMvol hmv _)
  · obtain ⟨r, hr⟩ := sampleVoice_completes htime harg
    rw [exec_sample_of_ok hok hr] at hu
    cases hu
    exact exec_sampleq_of_quantize_error hok hr (quantize_invalidAmp hmv hy)

/-! ### What a failing command writes (R93, R225) -/

/-- A command that leaves an error was refused, is an INIT that failed, or recorded its first error. -/
theorem exec_failed {i : Instr} {s t : State} (h : exec i s = .next t) (herr : t.status.err = true) :
    (s.status.err = true ∧ t = s) ∨
    (isInit i = true ∧ ∃ c, t = { s with status := Status.failedInit c }) ∨
    (s.status.err = false ∧ ∃ c, t = s.withErrorCode (errorNumber c)) := by
  rcases exec_cases h with ⟨-, -, rfl⟩ | ⟨k, m, -, -, -, -, rfl⟩ | ⟨k, m, c, -, rfl, -, rfl⟩ | ⟨-, hok, c, rfl, -⟩ |
    ⟨-, hok, r, -, rfl⟩ | ⟨-, hok, q, -, rfl⟩ | ⟨-, hok, r, q, -, -, rfl⟩
  · exact .inl ⟨herr, rfl⟩
  · cases herr
  · exact .inr (.inl ⟨isInit_initCommand k m, c, rfl⟩)
  · exact .inr (.inr ⟨hok, c, recordError_of_no_err hok⟩)
  · exact absurd (hok.symm.trans herr) nofun
  · exact absurd (hok.symm.trans herr) nofun
  · exact absurd (hok.symm.trans herr) nofun

/-- Settles O46: a command refused changes nothing, a failed INIT replaces STATUS, an error recorded sets ERR and
ERRCODE. -/
theorem failingCommandsWriteOnlyStatus : Obligations.FailingCommandsWriteOnlyStatus := by
  intro i s t h herr
  obtain ⟨hs, rfl⟩ | ⟨hinit, c, rfl⟩ | ⟨hok, c, rfl⟩ := exec_failed h herr
  · exact ⟨rfl, fun _ => (if_pos hs).symm⟩
  · exact ⟨rfl, fun hi => absurd (hinit.symm.trans hi) nofun⟩
  · rw [hok]
    exact ⟨rfl, fun _ => rfl⟩

end Sys2Proof.Machine

/-! PROOFS. The statements about reset and hazards (70_reset_and_hazards.md): what reset leaves in the registers, how far a
change of FREQ and VOL reaches, and the obligations O12, O52 and O54. -/

namespace Sys2Proof.Machine

/-! ### Reset (R250, R251) -/

/-- R41's reset values, as the port reads them. -/
theorem portRead_reset : ∀ idx : RegIndex, portRead State.reset idx = if idx = 0xA then 0x0001 else 0x0 := by decide

/-- Reset differs from the power-on state in the host's side of the port alone, which no index reads. -/
theorem portRead_resetBlock (s : State) (idx : RegIndex) : portRead (resetBlock s) idx = portRead State.reset idx :=
  portRead_port State.reset s.pending s.hostReads idx

/-- Settles O12: the state is `resetBlock`'s, and every index of it reads as at power-on. -/
theorem resetRestoresEveryRegister : Obligations.ResetRestoresEveryRegister := fun s =>
  ⟨resetBlock s, rfl, rfl, rfl, fun idx => ⟨(portRead_resetBlock s idx).trans (portRead_reset idx), portRead_reset idx⟩⟩

/-- Settles O54: the power-on state is the one reset makes of itself. -/
theorem resetMeetsTheInvariant : Obligations.ResetMeetsTheInvariant := resetBlock_inv State.reset

/-! ### Commands that do not read FREQ and VOL (R256) -/

/-- The state with other words in FREQ and VOL. -/
def State.withFreqVol (f v : Word) (s : State) : State := { s with freq := f, vol := v }

/-- A sample is of the latched frequency and volume (R36, R37). -/
theorem sampleVoice_withFreqVol (f v : Word) (s : State) : sampleVoice (s.withFreqVol f v) = sampleVoice s := rfl

theorem ainOperand_withFreqVol (f v : Word) (s : State) : ainOperand (s.withFreqVol f v) = ainOperand s := rfl

theorem mvolOperand_withFreqVol (f v : Word) (s : State) : mvolOperand (s.withFreqVol f v) = mvolOperand s := rfl

theorem sampleBody_withFreqVol (f v : Word) (s : State) :
    sampleBody (s.withFreqVol f v) = (sampleBody s).withFreqVol f v := by
  unfold sampleBody
  rw [sampleVoice_withFreqVol]
  cases sampleVoice s <;> rfl

theorem quantBody_withFreqVol (f v : Word) (s : State) :
    quantBody (s.withFreqVol f v) = (quantBody s).withFreqVol f v := by
  unfold quantBody
  rw [ainOperand_withFreqVol, mvolOperand_withFreqVol]
  cases quantize (ainOperand s) (mvolOperand s) <;> rfl

theorem sampleqBody_withFreqVol (f v : Word) (s : State) :
    sampleqBody (s.withFreqVol f v) = (sampleqBody s).withFreqVol f v := by
  unfold sampleqBody
  rw [sampleVoice_withFreqVol, mvolOperand_withFreqVol]
  cases sampleVoice s with
  | error c => rfl
  | ok r =>
    dsimp only
    cases quantize (F64.ofBits r.amp) (mvolOperand s) <;> rfl

/-- Every command but INIT gives the same next state with other words in FREQ and VOL, but for those. -/
theorem exec_withFreqVol {i : Instr} {s t : State} (hi : isInit i = false) (h : exec i s = .next t) (f v : Word) :
    exec i (s.withFreqVol f v) = .next (t.withFreqVol f v) := by
  cases herr : s.status.err with
  | true =>
    rw [exec_of_err herr hi] at h
    cases h
    exact exec_of_err (s := s.withFreqVol f v) herr hi
  | false =>
    have herr' : (s.withFreqVol f v).status.err = false := herr
    cases i with
    | nop => cases h; rfl
    | sample =>
      rw [exec_sample herr] at h
      cases h
      rw [exec_sample herr', sampleBody_withFreqVol]
    | quant =>
      rw [exec_quant herr] at h
      cases h
      rw [exec_quant herr', quantBody_withFreqVol]
    | sampleq =>
      rw [exec_sampleq herr] at h
      cases h
      rw [exec_sampleq herr', sampleqBody_withFreqVol]
    | initSil | initSine | initSqr | initNoise | initNoiseS => cases hi

/-! ### Transactions that show nothing of FREQ and VOL (R256) -/

/-- A word the decoder rejects records ILLEGAL_CMD (R90). -/
theorem executeCommand_of_reject {w : Word} {e : DecodeReject} (h : decode w = .error e) (s : State) :
    executeCommand w s = .next (recordError .illegalCmd s) := by
  unfold executeCommand; rw [h]

/-- A store to an index that is no operand register's is BAD_ACCESS (R52). -/
theorem portStore_of_not_operand {idx : RegIndex}
    (h : idx ≠ 0x2 ∧ idx ≠ 0x3 ∧ idx ≠ 0x4 ∧ idx ≠ 0x5 ∧ idx ≠ 0x6) (w : Word) (s : State) :
    portStore idx w s = recordError .badAccess s := by
  obtain ⟨rfl, -⟩ | ⟨rfl, -⟩ | ⟨rfl, -⟩ | ⟨rfl, -⟩ | ⟨rfl, -⟩ | ⟨-, hstore⟩ := portStore_cases idx w s
  case inr.inr.inr.inr.inr => exact hstore
  all_goals exact absurd h (by decide)

/-- A store to FREQ or VOL replaces that word in both states; any other store leaves the two as they are. -/
theorem portStore_withFreqVol (idx : RegIndex) (w f v : Word) (s : State) :
    ∃ f' v', portStore idx w (s.withFreqVol f v) = (portStore idx w s).withFreqVol f' v' := by
  obtain ⟨rfl, -⟩ | ⟨rfl, -⟩ | ⟨rfl, -⟩ | ⟨rfl, -⟩ | ⟨rfl, -⟩ | ⟨hidx, -⟩ := portStore_cases idx w s
  · exact ⟨w, v, rfl⟩
  · exact ⟨f, w, rfl⟩
  · exact ⟨f, v, rfl⟩
  · exact ⟨f, v, rfl⟩
  · exact ⟨f, v, rfl⟩
  · exact ⟨f, v, by rw [portStore_of_not_operand hidx, portStore_of_not_operand hidx]; rfl⟩

/-- Every index but those of FREQ and VOL reads the same whatever the two hold. -/
theorem portRead_withFreqVol {idx : RegIndex} (hfreq : idx ≠ 0x2) (hvol : idx ≠ 0x3) (f v : Word) (s : State) :
    portRead (s.withFreqVol f v) idx = portRead s idx := by
  obtain ⟨⟨n, hn⟩⟩ := idx
  interval_cases n
  · rfl
  · rfl
  · exact absurd rfl hfreq
  · exact absurd rfl hvol
  all_goals rfl

theorem deliverRead_withFreqVol {idx : RegIndex} (hfreq : idx ≠ 0x2) (hvol : idx ≠ 0x3) (f v : Word) (s : State) :
    deliverRead idx (s.withFreqVol f v) = (deliverRead idx s).withFreqVol f v := by
  rw [deliverRead, portRead_withFreqVol hfreq hvol]
  rfl

/-- A transaction that is no INIT command and no read of FREQ or VOL keeps two states the same but for FREQ and VOL. -/
theorem transact_withFreqVol {tr : Transaction} {s t : State} (hinit : isInitWrite tr = false)
    (hread : readsFreqOrVol tr = false) (h : transact tr s = .next t) (f v : Word) :
    ∃ f' v', transact tr (s.withFreqVol f v) = .next (t.withFreqVol f' v') := by
  obtain ⟨w, i, rfl, hi, hx⟩ | ⟨w, rfl, hreject, rfl⟩ | ⟨idx, w, rfl, hidx, rfl⟩ | ⟨idx, rfl, rfl⟩ | ⟨rfl, rfl⟩ :=
    transact_cases h
  · rw [isInitWrite_cmd hi] at hinit
    exact ⟨f, v, (executeCommand_of_decode hi _).trans (exec_withFreqVol hinit hx f v)⟩
  · exact ⟨f, v, executeCommand_of_reject hreject _⟩
  · obtain ⟨f', v', hstore⟩ := portStore_withFreqVol idx w f v s
    exact ⟨f', v', (if_neg hidx).trans (congrArg _ hstore)⟩
  · obtain ⟨hfreq, hvol⟩ : idx ≠ 0x2 ∧ idx ≠ 0x3 := by simpa [readsFreqOrVol] using hread
    exact ⟨f, v, congrArg Host.Outcome.next (deliverRead_withFreqVol hfreq hvol f v s)⟩
  · exact ⟨PZERO, PZERO, rfl⟩

/-- Settles O52: the two runs go on side by side, by induction on the transactions. -/
theorem freqAndVolReachOnlyInit : Obligations.FreqAndVolReachOnlyInit := by
  intro ts
  induction ts with
  | nil => exact fun s f v _ => ⟨_, f, v, runHost_nil s, runHost_nil (s.withFreqVol f v)⟩
  | cons tr ts ih =>
    intro s f v hts
    obtain ⟨hinit, hread⟩ := hts tr (.head _)
    obtain ⟨t, ht, -⟩ := transact_next tr { s with pending := ts }
    obtain ⟨f', v', ht'⟩ := transact_withFreqVol hinit hread ht f v
    rw [runHost_cons ht, runHost_cons (s := { s with freq := f, vol := v }) ht']
    exact ih t f' v' fun tr' hmem => hts tr' (.tail _ hmem)

end Sys2Proof.Machine
